-- ==== Sys2Proof/Word.lean ====
section
/-! DEFINITION. The words of the block: every quantity is unsigned (00_scope.md R8). -/

namespace Sys2Proof

/-- One timing entry of a frame, a time in microseconds (10_state.md R48, 20_memory.md R70). -/
abbrev Entry := BitVec 16

/-- The index of a frame-buffer entry, 0 to 127: the width of `IDX` (10_state.md R40, R48). An index
outside the buffer cannot be written down (20_memory.md R74). -/
abbrev EntryIndex := BitVec 7

/-- A value of the free-running counter `TIME`, one count a microsecond (10_state.md R45). -/
abbrev Ticks := BitVec 64

/-- The duration operand of a command, in ticks (30_encoding.md R102). -/
abbrev Duration := BitVec 32

/-- A level of the pin: `false` is low (0, carrier off), `true` is high (1, carrier on)
(00_scope.md R11). -/
abbrev Level := Bool

/-- The low level, 0. -/
abbrev low : Level := false

/-- The high level, 1. -/
abbrev high : Level := true

end Sys2Proof
end

