-- ==== Sys2Proof/Syntax.lean ====
section
/-! DEFINITION. The instructions of the block, one constructor per row of spec/opcode_table.json, what
the host presents on the two operand ports, and the causes of the block's faults. -/

namespace Sys2Proof

/-- The instructions. The `_MS` forms have no encoding of their own (30_encoding.md R119): they are lines
of the assembler (Machine/Assembler.lean). -/
inductive Instr where
  /-- SHOCK (43_commands.md R221): `chan` is the channel's wire code, the channel number less 1. -/
  | shock (chan : BitVec 4) (strength : BitVec 8) (duration : Duration)
  /-- VIBRATE (43_commands.md R222). -/
  | vibrate (chan : BitVec 4) (strength : BitVec 8) (duration : Duration)
  /-- BEEP (43_commands.md R223): no strength operand. -/
  | beep (chan : BitVec 4) (duration : Duration)
  /-- CONFIGURE (42_transmitter_session.md R190). -/
  | configure (id : BitVec 16)
deriving DecidableEq, Repr

/-- What is presented on an operand port: each port carries exactly one format (30_encoding.md R100). -/
inductive Offer where
  /-- Format CW16 on `cmd_word`, with the duration on `cmd_duration` (30_encoding.md R101, R102). -/
  | command (word : BitVec 16) (duration : Duration)
  /-- Format CFG16 on `cfg_id` (30_encoding.md R103). -/
  | config (id : BitVec 16)
deriving DecidableEq, Repr

/-- The values of `FAULT_CAUSE` (10_state.md R43, 60_exceptions.md R251). The code 3 is never produced
and cannot be written down (93 U11, log 22). -/
inductive FaultCause where
  | none
  | illegalChannel
  | illegalCommand
deriving DecidableEq, Repr

/-- The 2-bit code of a cause, as port `fault_cause` shows it (60_exceptions.md R251). -/
def FaultCause.code : FaultCause → BitVec 2
  | .none => 0#2
  | .illegalChannel => 1#2
  | .illegalCommand => 2#2

end Sys2Proof
end

