-- ==== Sys2Proof/WellFormed.lean ====
section
/-! DEFINITION. Which instructions the encodings admit. -/

namespace Sys2Proof

/-- The channel codes 0, 1 and 2 are the legal ones (30_encoding.md R105, R112). -/
def legalChannel (chan : BitVec 4) : Bool := decide (chan.toNat ≤ 2)

/-- The command codes 1, 2 and 3 are the legal ones (30_encoding.md R104, R111). -/
def legalCommand (cmd : BitVec 4) : Bool := cmd == 1#4 || cmd == 2#4 || cmd == 3#4

/-- Well-formedness: a command's channel code is legal. Every strength, duration and device id is legal
(30_encoding.md R101 to R103, R113). -/
def Instr.wf : Instr → Bool
  | .shock chan _ _ => legalChannel chan
  | .vibrate chan _ _ => legalChannel chan
  | .beep chan _ => legalChannel chan
  | .configure _ => true

end Sys2Proof
end

