-- ==== Sys2Proof/Decode.lean ====
section
/-! DEFINITION. The decoding procedure of 30_encoding.md R118, total on every value of either port, and
after it the encoder, from the same tables. -/

namespace Sys2Proof

/-- What a port's value is read as: an instruction, or an illegal word with the cause of its fault. -/
inductive Decoded where
  | legal (i : Instr)
  | illegal (cause : FaultCause)
deriving DecidableEq, Repr

/-- `cmd_word[15:12]` (30_encoding.md R101). -/
def chanField (w : BitVec 16) : BitVec 4 := w.extractLsb' 12 4

/-- `cmd_word[11:8]` (30_encoding.md R101). -/
def cmdField (w : BitVec 16) : BitVec 4 := w.extractLsb' 8 4

/-- `cmd_word[7:0]` (30_encoding.md R101). -/
def strengthField (w : BitVec 16) : BitVec 8 := w.extractLsb' 0 8

/-- A command word from its fields (30_encoding.md R101). -/
def commandWord (chan cmd : BitVec 4) (strength : BitVec 8) : BitVec 16 := chan ++ cmd ++ strength

/-- The decoding procedure of a command word (30_encoding.md R118): the channel first, then the command.
A BEEP drops the strength field (30_encoding.md R114). -/
def decodeCommand (w : BitVec 16) (d : Duration) : Decoded :=
  if legalChannel (chanField w) then
    if cmdField w = 1#4 then .legal (.shock (chanField w) (strengthField w) d)
    else if cmdField w = 2#4 then .legal (.vibrate (chanField w) (strengthField w) d)
    else if cmdField w = 3#4 then .legal (.beep (chanField w) d)
    else .illegal .illegalCommand
  else .illegal .illegalChannel

/-- Decoding what is presented on a port. Every value on the configuration port is a CONFIGURE
(30_encoding.md R119). -/
def decodeOffer : Offer → Decoded
  | .command w d => decodeCommand w d
  | .config id => .legal (.configure id)

/-- The encoder, the inverse of decoding on legal instructions, with the strength field of BEEP written
as 0 (30_encoding.md R118; 43_commands.md R221 to R223). -/
def encode : Instr → Offer
  | .shock chan strength d => .command (commandWord chan 1#4 strength) d
  | .vibrate chan strength d => .command (commandWord chan 2#4 strength) d
  | .beep chan d => .command (commandWord chan 3#4 0#8) d
  | .configure id => .config id

/-- The port a word of the opcode table is meant for. The table's CONFIGURE row has mask 0, so its bits
do not tell it from a command: a word that a command row matches (`cmd` 1, 2 or 3) goes to the command
port, any other to the configuration port. DESIGN CHOICE (log 17). The bits above the first word are the
duration operand (log 19); where the table gives none they are 0. -/
def tableOffer (w : Nat) : Offer :=
  let word := BitVec.ofNat 16 w
  if legalCommand (cmdField word) then .command word (BitVec.ofNat 32 (w / 65536)) else .config word

/-- The instruction that the decoder reads from a word of spec/opcode_table.json, `none` where it
refuses the word. `nbits` only says how many of the bits the table gives; those above are 0. -/
def decodeTableWord (nbits w : Nat) : Option Instr :=
  match decodeOffer (tableOffer (w % 2 ^ nbits)) with
  | .legal i => some i
  | .illegal _ => none

end Sys2Proof
end

