-- ==== Sys2Proof/Config.lean ====
section
/-! DEFINITION. What is fixed for the machine: the constants of 00_scope.md R5 and R6, the parameters of
00_scope.md R7, and the free values (constants with no body) for what the spec leaves open. -/

namespace Sys2Proof.Config

/-- The period of one bit. UNVERIFIED, like every literal of R5 (93 U9, log 23). -/
def pulseLen : Entry := 1016#16

/-- High time of a 0 bit, and the first trailer entry (00_scope.md R5). -/
def zeroLen : Entry := 292#16

/-- High time of a 1 bit (00_scope.md R5). -/
def oneLen : Entry := 804#16

/-- Preamble entry 0 (00_scope.md R5). -/
def pre0 : Entry := 840#16

/-- Preamble entry 1 (00_scope.md R5). -/
def pre1 : Entry := 1440#16

/-- Preamble entry 2, `PULSE_LEN - ZERO_LEN` (00_scope.md R5). -/
def pre2 : Entry := pulseLen - zeroLen

/-- Trailer entry 0, `ZERO_LEN` (00_scope.md R5). -/
def trail0 : Entry := zeroLen

/-- Trailer entry 1 (00_scope.md R5). -/
def trail1 : Entry := 1476#16

/-- Capacity of the frame buffer in entries (00_scope.md R5). -/
def frameCap : Nat := 128

/-- Number of payload bits, 16+4+4+8+8+2 (00_scope.md R6). -/
def nBits : Nat := 42

/-- Number of entries of every frame, 3 + 2 x 42 + 2 (00_scope.md R6). -/
def frameEntries : Nat := 3 + 2 * nBits + 2

/-- The time one frame lasts, the sum of its entries (00_scope.md R6, 40_frame_encoder.md R150). -/
def frameUs : Nat := 840 + 1440 + 724 + 42 * 1016 + 292 + 1476

/-- Ticks per millisecond, for the assembler's `_MS` forms (00_scope.md R7). -/
def msTicks : Nat := 1000

/-- The largest millisecond operand, floor((2^32 - 1) / 1000) (00_scope.md R7). -/
def msMax : Nat := 4294967

/-- The channel selector that maps to wire code 0 (00_scope.md R7, 30_encoding.md R110). -/
def channelSelBase : Nat := 1

/-- The level of `TX_OUT` out of reset, when idle and in FAULT (00_scope.md R7). -/
def txIdle : Level := low

/-- The overheads of a realisation, in ticks (00_scope.md R7, 93 U10, log 16). -/
structure Timing where
  /-- `T_ENC`: ticks that ENCODE takes. -/
  tEnc : Nat
  /-- `T_CHK`: ticks that one deadline test takes. -/
  tChk : Nat
  /-- `T_GAP`: extra ticks after each entry. -/
  tGap : Nat
deriving DecidableEq, Repr

/-- The values the spec takes: all 0 (00_scope.md R7). `Machine.step` runs with these. -/
def taken : Timing := ⟨0, 0, 0⟩

/-- FREE VALUE: what a register whose reset value is unspecified holds after a reset step (10_state.md
R56, 93 U5, log 4). The argument numbers the draws; nothing constrains a draw. -/
opaque freeRegister : Nat → BitVec 64

/-- FREE VALUE: what a frame-buffer entry that no ENCODE has written since reset holds (10_state.md R56,
20_memory.md R77, 93 U6, log 2). The first argument numbers the draw of the buffer; nothing constrains an
entry. -/
opaque freeEntry : Nat → EntryIndex → Entry

/-- FREE VALUE: how many ticks the host lets pass in a wait it has planned no end of (42 R209 "any
amount", log 7). The argument numbers the draws. -/
opaque idleTicks : Nat → Ticks

end Sys2Proof.Config
end

