-- ==== Sys2Proof/Machine/State.lean ====
section
/-! DEFINITION. The state of the block, of its environment (the time counter, the ports, the host) and of
the two observations, as plain data; what makes the machine stop; the state after reset. -/

namespace Sys2Proof.Machine

/-- `PHASE` (10_state.md R39). The codes 5, 6 and 7 never occur and cannot be written down (93 U11, log
22). -/
inductive Phase where
  /-- After reset; no device id yet. -/
  | unconfigured
  /-- Configured, no command in progress. -/
  | idle
  /-- A command is in progress and the deadline is about to be tested. -/
  | check
  /-- A frame is being played on the pin. -/
  | drive
  /-- An illegal command word was presented. -/
  | fault
deriving DecidableEq, Repr

/-- The 3-bit code of a phase (10_state.md R39). -/
def Phase.code : Phase → BitVec 3
  | .unconfigured => 0#3
  | .idle => 1#3
  | .check => 2#3
  | .drive => 3#3
  | .fault => 4#3

/-- One segment of the observation `TRACE`: a level and the entry's time in microseconds (10_state.md
R52). -/
structure Segment where
  level : Level
  ticks : Entry
deriving DecidableEq, Repr

/-- The input ports but `time_now` (10_state.md R54), as levels the host holds. -/
structure Inputs where
  rst : Bool
  cfgValid : Bool
  cfgId : BitVec 16
  cmdValid : Bool
  cmdWord : BitVec 16
  cmdDuration : Duration
deriving DecidableEq, Repr

/-- Nothing offered and `rst` released. -/
def Inputs.quiet : Inputs := ⟨false, false, 0#16, false, 0#16, 0#32⟩

/-- When the host makes its next port change. DESIGN CHOICE (log 8). -/
inductive Moment where
  /-- At a time of the counter (at once, if it has passed), whatever the block is doing. -/
  | atTime (t : Ticks)
  /-- `d` ticks after the block has become free: its last offer taken, no command in progress. -/
  | whenFree (d : Ticks)
deriving DecidableEq, Repr

/-- One port change the host will make. -/
structure HostEvent where
  moment : Moment
  inputs : Inputs
deriving DecidableEq, Repr

/-- The entries that have been written: pairs of an entry index and the entry, indices rising. One cell is
one 16-bit entry, the spec's only unit of access (20_memory.md R70, log 1). -/
abbrev Cells := List (Nat × Entry)

/-- The frame buffer (10_state.md R48). An entry that is not listed holds any value (10_state.md R56,
20_memory.md R77, 93 U6): a free value, numbered by `draw` (log 2). -/
structure Memory where
  /-- The entries written since reset. -/
  cells : Cells
  /-- The number of the draw that the other entries were given at reset: the model's own (log 2). -/
  draw : Nat
deriving DecidableEq, Repr

/-- The frame buffer with every entry unspecified, as a reset leaves it (10_state.md R56). -/
def Memory.unspecified (draw : Nat) : Memory := ⟨[], draw⟩

/-- The state (10_state.md R30, R45, R52 to R54). -/
@[ext]
structure State where
  /-- `DEVICE_ID` (10_state.md R31). -/
  deviceId : BitVec 16
  /-- `CHAN` (10_state.md R32). -/
  chan : BitVec 4
  /-- `CMD` (10_state.md R33). -/
  cmd : BitVec 4
  /-- `STRENGTH`, the effective strength (10_state.md R34). -/
  strength : BitVec 8
  /-- `CHK` (10_state.md R35). -/
  chk : BitVec 8
  /-- `DEADLINE` (10_state.md R36). -/
  deadline : Ticks
  /-- `PHASE` (10_state.md R39). -/
  phase : Phase
  /-- `IDX` (10_state.md R40). -/
  idx : EntryIndex
  /-- `LEVEL` (10_state.md R41). -/
  level : Level
  /-- `TX_OUT` (10_state.md R42). -/
  txOut : Level
  /-- `FAULT_CAUSE` (10_state.md R43). -/
  faultCause : FaultCause
  /-- `FRAME_LEN` (10_state.md R44). -/
  frameLen : BitVec 8
  /-- `FRAME` (10_state.md R48). -/
  frame : Memory
  /-- `TIME`, on port `time_now` (10_state.md R45): the environment's. -/
  time : Ticks
  /-- The input ports (10_state.md R54): the host's. -/
  inputs : Inputs
  /-- The port changes the host will still make, the next one first: the model's own (log 8). -/
  host : List HostEvent
  /-- The observation `TRACE` (10_state.md R52). -/
  trace : List Segment
  /-- For each segment of `TRACE`, the time at which it began: the model's own, from which the waveform of
  10_state.md R52 knows when each command played (log 31). -/
  starts : List Ticks
  /-- The observation `FRAMES` (10_state.md R53). -/
  frames : Nat
  /-- How many free values have been drawn: the model's own (logs 2, 4, 7). -/
  draws : Nat
deriving DecidableEq, Repr

/-- Why the machine stops with a fault. The block's own faults are not here: they are the phase FAULT, a
next state (60_exceptions.md R256). -/
inductive Fault where
  /-- Raised in phase DRIVE with `IDX` above `FRAME_LEN`: neither step of 41_pulse_driver.md R172 and R175
  is enabled. Safe: no reachable state has it (log 15). -/
  | noStepEnabled
deriving DecidableEq, Repr

/-- Why the machine refuses to go on. -/
inductive Refusal where
  /-- An instruction without a meaning, by its mnemonic. No arm answers with it. Safe. -/
  | notModelled (mnemonic : String)
  /-- Raised by command acceptance when `TIME` would run past 2^64 - 1 before the command ends: "a model
  refuses such a launch" (42 R204, 93 U3, log 13). Safe. -/
  | clockOverflow
  /-- Raised by any other step that would take `TIME` past 2^64 - 1: a `time_now` that decreases is refused
  (93 U14, log 14). Safe. -/
  | clockWrap
deriving DecidableEq, Repr

/-- What one step answers. -/
abbrev Result := Host.Outcome State Fault Refusal

/-- The state right after reset (10_state.md R56). `deviceId` to `deadline` have no reset value in the
spec and are 0 by DESIGN CHOICE (log 3), `time` likewise (log 5); every entry of the frame is a free
value (log 2); the ports and the host are quiet (log 8); `draws` starts at 0 (log 4). -/
def State.reset : State where
  deviceId := 0#16
  chan := 0#4
  cmd := 0#4
  strength := 0#8
  chk := 0#8
  deadline := 0#64
  phase := .unconfigured
  idx := 0#7
  level := low
  txOut := Config.txIdle
  faultCause := .none
  frameLen := 0#8
  frame := .unspecified 0
  time := 0#64
  inputs := .quiet
  host := []
  trace := []
  starts := []
  frames := 0
  draws := 0

end Sys2Proof.Machine
end

