-- ==== Sys2Proof/Machine/Flags.lean ====
section
/-! DEFINITION. The derived status flags and the output ports (10_state.md R47, R54): functions of the
state, not state. -/

namespace Sys2Proof.Machine

/-- `configured` (10_state.md R47). -/
def State.configured (s : State) : Bool := s.phase != .unconfigured

/-- Port `cfg_ready`: 1 exactly in phase UNCONFIGURED (10_state.md R54), and 0 while `rst` is 1
(70_reset_and_hazards.md R290). -/
def State.cfgReady (s : State) : Bool := s.phase == .unconfigured && !s.inputs.rst

/-- Port `cmd_ready`: 1 exactly in phase IDLE (10_state.md R54), and 0 while `rst` is 1
(70_reset_and_hazards.md R290). -/
def State.cmdReady (s : State) : Bool := s.phase == .idle && !s.inputs.rst

/-- Port `busy`: 1 exactly in phases CHECK and DRIVE (10_state.md R47, R54). -/
def State.busy (s : State) : Bool := s.phase == .check || s.phase == .drive

/-- Port `fault`: 1 exactly in phase FAULT (10_state.md R47, R54). -/
def State.faulted (s : State) : Bool := s.phase == .fault

/-- Port `fault_cause` (10_state.md R54). -/
def State.faultCausePort (s : State) : BitVec 2 := s.faultCause.code

/-- Port `tx_out`: the level of the pin register at all times (10_state.md R42). -/
def State.txOutPort (s : State) : BitVec 1 := BitVec.ofBool s.txOut

end Sys2Proof.Machine
end

