-- ==== Sys2Proof/Machine/Ops.lean ====
section
/-! DEFINITION. The named operations over the frame buffer, the pin, the time counter and the
observations; taking a fault, and reset, which is the only way out of one. -/

namespace Sys2Proof.Machine

/-- The entry at index `i` if it was written since reset. -/
def Memory.written (m : Memory) (i : EntryIndex) : Option Entry := m.cells.lookup i.toNat

/-- `MemRead(i, 1)` (00_scope.md R10): the entry at index `i`, a free value when it was not written since
reset (10_state.md R56, 93 U6, log 2). -/
def Memory.read (m : Memory) (i : EntryIndex) : Entry :=
  (m.written i).getD (Config.freeEntry m.draw i)

/-- The cell list with the entry `v` at index `i`, in its place in the rising order. -/
def insertCell (i : Nat) (v : Entry) : Cells → Cells
  | [] => [(i, v)]
  | (j, u) :: rest =>
    if i < j then (i, v) :: (j, u) :: rest
    else if i = j then (i, v) :: rest
    else (j, u) :: insertCell i v rest

/-- `MemWrite(i, 1, v)` (00_scope.md R10): no effect other than on that entry (20_memory.md R76). -/
def Memory.write (m : Memory) (i : EntryIndex) (v : Entry) : Memory :=
  { m with cells := insertCell i.toNat v m.cells }

/-- Writing a list of entries at consecutive indices from `n` on, in order: the appends of ENCODE
(40_frame_encoder.md R147). -/
def Memory.writeFrom (m : Memory) (n : Nat) : List Entry → Memory
  | [] => m
  | v :: rest => (m.write (BitVec.ofNat 7 n) v).writeFrom (n + 1) rest

/-- The indices of a cell list rise strictly, from `b` on, and lie below `FRAME_CAP`. -/
def risesFrom : Nat → Cells → Bool
  | _, [] => true
  | b, (j, _) :: rest =>
    decide (b ≤ j) && decide (j < Config.frameCap) && risesFrom (j + 1) rest

/-- The canonical form of the frame buffer: the indices rise strictly, so none is listed twice, and each
is an index of the buffer (20_memory.md R70). A written entry stays listed whatever its value, since an
unlisted one is a free value that nothing can be compared with (log 2). -/
def Memory.wf (m : Memory) : Bool := risesFrom 0 m.cells

/-- `PinSet(l)` (00_scope.md R10): it cannot fail (60_exceptions.md R254). -/
def State.pinSet (s : State) (l : Level) : State := { s with txOut := l }

/-- `Emit(l, t)` (00_scope.md R10): appends one segment to the observation `TRACE`. It begins now (log
31). -/
def State.emit (s : State) (l : Level) (t : Entry) : State :=
  { s with trace := s.trace ++ [⟨l, t⟩], starts := s.starts ++ [s.time] }

/-- `TIME` grows by `n` and nothing else changes; `none` when it would pass 2^64 - 1 (93 U14, log 14). -/
def State.advance (s : State) (n : Nat) : Option State :=
  if s.time.toNat + n < 2 ^ 64 then some { s with time := s.time + BitVec.ofNat 64 n } else none

/-- Fault entry, `raise Fault(cause)` (60_exceptions.md R256): the cause and the phase, nothing else. No
position and no status is saved, and there is no handler. -/
def State.takeFault (s : State) (cause : FaultCause) : State :=
  { s with faultCause := cause, phase := .fault }

/-- The draw number `k` of the unspecified register values, in `n` bits (93 U5, log 4). -/
def unspecified (n k : Nat) : BitVec n := (Config.freeRegister k).setWidth n

/-- The reset step, taken when `rst` is 1 (70_reset_and_hazards.md R290): the fixed values of 10_state.md
R56; every other register a free value (log 4), and every frame-buffer entry (log 2). `TIME` is
not reset, and `TRACE` keeps its segments until `rst` falls (R292, log 12). It is the only return from a
fault (60_exceptions.md R258). -/
def State.resetStep (s : State) : State :=
  { s with
    deviceId := unspecified 16 s.draws
    chan := unspecified 4 (s.draws + 1)
    cmd := unspecified 4 (s.draws + 2)
    strength := unspecified 8 (s.draws + 3)
    chk := unspecified 8 (s.draws + 4)
    deadline := unspecified 64 (s.draws + 5)
    draws := s.draws + 7
    phase := .unconfigured
    idx := 0#7
    level := low
    txOut := Config.txIdle
    faultCause := .none
    frameLen := 0#8
    frame := .unspecified (s.draws + 6) }

/-- Whether the block already is in the reset state, in all that 10_state.md R56 fixes. Such a block takes
no reset step when `rst` rises: what R56 leaves unspecified keeps its old value then. DESIGN CHOICE (log
32). -/
def State.inReset (s : State) : Bool :=
  s.phase == .unconfigured && s.idx == 0#7 && s.level == low && s.txOut == Config.txIdle &&
    s.faultCause == .none && s.frameLen == 0#8

end Sys2Proof.Machine
end

