-- ==== Sys2Proof/Machine/FrameEncoder.lean ====
section
/-! DEFINITION. The command frame encoder, operation ENCODE (40_frame_encoder.md). -/

namespace Sys2Proof.Machine

/-- `CHECKSUM(id, chan, cmd, str)`: the five terms summed in the integers, the sum reduced mod 256
(40_frame_encoder.md R141). -/
def checksum (id : BitVec 16) (chan cmd : BitVec 4) (str : BitVec 8) : BitVec 8 :=
  BitVec.ofNat 8 ((id.extractLsb' 8 8).toNat + (id.extractLsb' 0 8).toNat + chan.toNat + cmd.toNat
    + str.toNat)

/-- The payload of 42 bits: id, channel, command, strength, checksum, two zeros (30_encoding.md R106,
40_frame_encoder.md R142). -/
def payload (id : BitVec 16) (chan cmd : BitVec 4) (str : BitVec 8) : BitVec 42 :=
  id ++ chan ++ cmd ++ str ++ checksum id chan cmd str ++ 0#2

/-- Wire bit `b[k] = P[41-k]` (40_frame_encoder.md R143): the most significant bit goes first. -/
def wireBit (p : BitVec 42) (k : Nat) : Bool := p.getLsbD (41 - k)

/-- The first entry of a bit's pair, played high (30_encoding.md R107). -/
def highLen (b : Bool) : Entry := if b then Config.oneLen else Config.zeroLen

/-- The pair of entries of one payload bit (40_frame_encoder.md R145). -/
def symbol (b : Bool) : List Entry := [highLen b, Config.pulseLen - highLen b]

/-- The three preamble entries (40_frame_encoder.md R144). -/
def preamble : List Entry := [Config.pre0, Config.pre1, Config.pre2]

/-- The two trailer entries (40_frame_encoder.md R146). -/
def trailer : List Entry := [Config.trail0, Config.trail1]

/-- The 89 entries of the frame of a payload (40_frame_encoder.md R147). -/
def frameOf (p : BitVec 42) : List Entry :=
  preamble ++ (List.range Config.nBits).flatMap (fun k => symbol (wireBit p k)) ++ trailer

/-- `Encode(id, chan, cmd, str)`, the encoder as a pure function (40_frame_encoder.md R147). -/
def encodeFrame (id : BitVec 16) (chan cmd : BitVec 4) (str : BitVec 8) : List Entry :=
  frameOf (payload id chan cmd str)

/-- ENCODE (40_frame_encoder.md R147): the checksum register, then the entries in order, then the
length. It does not touch the pin and does not read `TIME` (R140). -/
def State.encode (s : State) : State :=
  let entries := encodeFrame s.deviceId s.chan s.cmd s.strength
  { s with
    chk := checksum s.deviceId s.chan s.cmd s.strength
    frame := s.frame.writeFrom 0 entries
    frameLen := BitVec.ofNat 8 entries.length }

end Sys2Proof.Machine
end

