-- ==== Sys2Proof/Machine/Operands.lean ====
section
/-! DEFINITION. How the operands of a command are assembled at its acceptance (30_encoding.md R109), and
the arithmetic of the deadline and of the frame count (42_transmitter_session.md R199 to R204). -/

namespace Sys2Proof.Machine

/-- The effective strength: 0 for BEEP, else the word's strength field (30_encoding.md R109 (3), R114). -/
def effectiveStrength (w : BitVec 16) : BitVec 8 :=
  if cmdField w = 3#4 then 0#8 else strengthField w

/-- `Now() + zext_64(d)` (42_transmitter_session.md R204). -/
def deadlineFrom (now : Ticks) (d : Duration) : Ticks := now + d.setWidth 64

/-- The ticks a hold of entry `t` lasts, `T_GAP` included (41_pulse_driver.md R172). -/
def holdTicks (tm : Config.Timing) (t : Entry) : Nat := t.toNat + tm.tGap

/-- The ticks from one deadline test to the next: the frame, the gap after each entry, the test
(42_transmitter_session.md R199, 41_pulse_driver.md R179). -/
def framePeriod (tm : Config.Timing) : Nat :=
  Config.frameUs + Config.frameEntries * tm.tGap + tm.tChk

/-- How many frames are sent when the deadline lies `d` ticks ahead: `ceil(d / F)` with no overheads
(42_transmitter_session.md R199, R203). -/
def framesFor (tm : Config.Timing) (d : Nat) : Nat :=
  (d - tm.tChk + framePeriod tm - 1) / framePeriod tm

/-- How long the repeat loop runs when the deadline lies `d` ticks ahead: `N x F` with no overheads
(42_transmitter_session.md R199). -/
def loopTicks (tm : Config.Timing) (d : Nat) : Nat :=
  framesFor tm d * framePeriod tm + tm.tChk

/-- The premise of every command (42_transmitter_session.md R204): neither `TIME` + duration nor `TIME`
itself, to the command's end, exceeds 2^64 - 1. The second bound is never the smaller one, so it says
both. -/
def launchFits (tm : Config.Timing) (now : Ticks) (d : Duration) : Bool :=
  decide (now.toNat + tm.tEnc + loopTicks tm d.toNat < 2 ^ 64)

end Sys2Proof.Machine
end

