-- ==== Sys2Proof/Machine/PulseDriver.lean ====
section
/-! DEFINITION. The pulse driver, operation DRIVE (41_pulse_driver.md): the steps of phase DRIVE. -/

namespace Sys2Proof.Machine

/-- The later of two times. -/
def later (a b : Ticks) : Ticks := if a ≤ b then b else a

/-- The time at which the host will raise `rst` before the counter reaches `bound`, if it will: the port
changes are made in their order, each at its own time or, when that has passed, at once. Reset acts in
the middle of a hold, every other port change only after it (70_reset_and_hazards.md R292, 41 R173). -/
def resetBefore (bound : Nat) : Ticks → List HostEvent → Option Ticks
  | _, [] => none
  | now, ⟨.atTime t, p⟩ :: rest =>
    if (later now t).toNat < bound then
      if p.rst then some (later now t) else resetBefore bound (later now t) rest
    else none
  | _, ⟨.whenFree _, _⟩ :: _ => none

/-- Entry step (41_pulse_driver.md R172): the pin takes the level, the segment is observed, the hold
passes, then the level flips and the index grows. A hold during which the host raises `rst` ends there
(70_reset_and_hazards.md R292, log 11): the reset step comes next. DESIGN CHOICE (log 30): with
`FRAME_LEN` 128 or more, which no run has, the 7-bit `IDX` goes from 127 to 0 and DRIVE does not end; the
spec only says that `IDX` never wraps (10_state.md R40). -/
def entryStep (tm : Config.Timing) (s : State) : Result :=
  let t := s.frame.read s.idx
  let driven := (s.pinSet s.level).emit s.level t
  match resetBefore (s.time.toNat + holdTicks tm t) s.time s.host with
  | some cut => .next { driven with time := cut }
  | none =>
    match driven.advance (holdTicks tm t) with
    | none => .refused .clockWrap
    | some held => .next { held with level := !s.level, idx := s.idx + 1#7 }

/-- Frame-end step (41_pulse_driver.md R175): the pin is forced low and the deadline is tested next. -/
def frameEndStep (s : State) : State :=
  { s.pinSet low with frames := s.frames + 1, phase := .check }

/-- The step of phase DRIVE: an entry while `IDX` is below `FRAME_LEN`, the frame end when it is equal
(41_pulse_driver.md R171). Above it neither step is enabled (log 15); a `FRAME_LEN` that the 7-bit `IDX`
cannot reach is log 30. -/
def driveStep (tm : Config.Timing) (s : State) : Result :=
  if s.idx.toNat < s.frameLen.toNat then entryStep tm s
  else if s.idx.toNat = s.frameLen.toNat then .next (frameEndStep s)
  else .fault .noStepEnabled

/-- DRIVE over an arbitrary list of entries (41_pulse_driver.md R180), from the present level on: the
algorithm of R171 with the list in place of the buffer and its index, for lists of any length. A host that
resets the block and the end of the clock are left to the steps. -/
def State.playList (tm : Config.Timing) : List Entry → State → State
  | [], s => frameEndStep s
  | t :: rest, s =>
    let driven := (s.pinSet s.level).emit s.level t
    State.playList tm rest
      { driven with time := s.time + BitVec.ofNat 64 (holdTicks tm t), level := !s.level }

end Sys2Proof.Machine
end

