-- ==== Sys2Proof/Machine/Session.lean ====
section
/-! DEFINITION. The modulator proper (42_transmitter_session.md): command acceptance, the deadline test
and the repeat loop. -/

namespace Sys2Proof.Machine

/-- The three operand latches of acceptance (42_transmitter_session.md R194): the effective strength, not
the raw field, is kept (10_state.md R34). -/
def State.latch (s : State) (w : BitVec 16) : State :=
  { s with chan := chanField w, cmd := cmdField w, strength := effectiveStrength w }

/-- The rest of an acceptance whose word is legal (42_transmitter_session.md R194): latch, ENCODE, let
`T_ENC` pass, compute the deadline, count no frame yet, go to CHECK. `IDX` is not written. -/
def State.launch (s : State) (tm : Config.Timing) (w : BitVec 16) (d : Duration) : State :=
  let encoded := (s.latch w).encode
  let now := s.time + BitVec.ofNat 64 tm.tEnc
  { encoded with time := now, deadline := deadlineFrom now d, frames := 0, phase := .check }

/-- ACCEPT (42_transmitter_session.md R194): the channel check, the command check, then the launch. A
launch that breaks the premise of R204 is refused (93 U3, log 13). -/
def accept (tm : Config.Timing) (w : BitVec 16) (d : Duration) (s : State) : Result :=
  if legalChannel (chanField w) = false then .next (s.takeFault .illegalChannel)
  else if legalCommand (cmdField w) = false then .next (s.takeFault .illegalCommand)
  else if launchFits tm s.time d then .next (s.launch tm w d)
  else .refused .clockOverflow

/-- A command word presented on the command port: taken exactly when `cmd_ready` is 1; in any other phase
it is not taken, not queued and not remembered (42_transmitter_session.md R192, R196, log 20). -/
def offerCommand (w : BitVec 16) (d : Duration) (s : State) : Result :=
  if s.cmdReady then accept Config.taken w d s else .next s

/-- Deadline test step (42_transmitter_session.md R198): unsigned, strict; `T_CHK` passes first. -/
def deadlineTest (tm : Config.Timing) (s : State) : Result :=
  match s.advance tm.tChk with
  | none => .refused .clockWrap
  | some now =>
    if now.time < now.deadline then .next { now with level := low, phase := .drive, idx := 0#7 }
    else .next { now with phase := .idle }

/-- One step of RUN (42_transmitter_session.md R197): the test in CHECK, the driver in DRIVE; in any other
phase the loop is over and nothing happens. -/
def loopStep (tm : Config.Timing) (s : State) : Result :=
  match s.phase with
  | .check => deadlineTest tm s
  | .drive => driveStep tm s
  | _ => .next s

/-- `k` steps of RUN, stopping at the first fault or refusal. -/
def loopRun (tm : Config.Timing) : Nat → State → Result
  | 0, s => .next s
  | k + 1, s =>
    match loopStep tm s with
    | .next t => loopRun tm k t
    | .fault r => .fault r
    | .refused r => .refused r

end Sys2Proof.Machine
end

