-- ==== Sys2Proof/Machine/Commands.lean ====
section
/-! DEFINITION. The meanings of the three commands and of CONFIGURE: what an instruction does when it is
presented on its port (43_commands.md, 42_transmitter_session.md R190). The frames that follow an
acceptance are steps of their own (42_transmitter_session.md R210). -/

namespace Sys2Proof.Machine

/-- SHOCK (43_commands.md R221). -/
def execShock (chan : BitVec 4) (strength : BitVec 8) (d : Duration) (s : State) : Result :=
  offerCommand (commandWord chan 1#4 strength) d s

/-- VIBRATE (43_commands.md R222). -/
def execVibrate (chan : BitVec 4) (strength : BitVec 8) (d : Duration) (s : State) : Result :=
  offerCommand (commandWord chan 2#4 strength) d s

/-- BEEP (43_commands.md R223): the strength field is written as 0, and is ignored in any case. -/
def execBeep (chan : BitVec 4) (d : Duration) (s : State) : Result :=
  offerCommand (commandWord chan 3#4 0#8) d s

/-- CONFIGURE (42_transmitter_session.md R190): once after each reset; at any other time the id is not
taken and has no effect of any kind (R191, log 20). -/
def execConfigure (id : BitVec 16) (s : State) : Result :=
  if s.cfgReady then .next { s with deviceId := id, phase := .idle } else .next s

end Sys2Proof.Machine
end

