-- ==== Sys2Proof/Machine/Dispatch.lean ====
section
/-! DEFINITION. One arm per instruction (42_transmitter_session.md R210). -/

namespace Sys2Proof.Machine

-- The meaning of an instruction presented on its port.
def exec (i : Instr) (s : State) : Host.Outcome State Fault Refusal :=
  match i with
  | .shock chan strength duration => Sys2Proof.Machine.execShock chan strength duration s
  | .vibrate chan strength duration => Sys2Proof.Machine.execVibrate chan strength duration s
  | .beep chan duration => Sys2Proof.Machine.execBeep chan duration s
  | .configure id => Sys2Proof.Machine.execConfigure id s

end Sys2Proof.Machine
end

