-- ==== Sys2Proof/Machine/Environment.lean ====
section
/-! DEFINITION. The host and the time counter (00_scope.md R12): the handshakes, the host's port changes,
waiting, and which agent moves next. -/

namespace Sys2Proof.Machine

/-- The offer that is transferred now: valid and ready both 1 (10_state.md R54). -/
def State.handshake (s : State) : Option Offer :=
  if s.cfgReady && s.inputs.cfgValid then some (.config s.inputs.cfgId)
  else if s.cmdReady && s.inputs.cmdValid then some (.command s.inputs.cmdWord s.inputs.cmdDuration)
  else none

/-- The host sees the handshake and lowers `valid` on that port: its offer has been taken. DESIGN CHOICE
(log 9). -/
def State.lower (s : State) : Offer → State
  | .command _ _ => { s with inputs := { s.inputs with cmdValid := false } }
  | .config _ => { s with inputs := { s.inputs with cfgValid := false } }

/-- Whether the host has an offer on a port. -/
def State.offering (s : State) : Bool := s.inputs.cfgValid || s.inputs.cmdValid

/-- The host changes its ports. When `rst` falls the observations start anew (10_state.md R52, R56, log
12). -/
def State.drivePorts (s : State) (p : Inputs) (rest : List HostEvent) : State :=
  { s with
    inputs := p
    host := rest
    trace := if s.inputs.rst && !p.rst then [] else s.trace
    starts := if s.inputs.rst && !p.rst then [] else s.starts
    frames := if s.inputs.rst && !p.rst then 0 else s.frames }

/-- The host's next port change, if its time has come. -/
def State.dueEvent (s : State) : Option (Inputs × List HostEvent) :=
  match s.host with
  | ⟨.atTime t, p⟩ :: rest => if t ≤ s.time then some (p, rest) else none
  | _ => none

/-- A wait that nothing is planned to end: `TIME` advances by any amount (42_transmitter_session.md R209)
by which it does not wrap, a free value (log 7). -/
def State.waitFreely (s : State) : State :=
  let room := 2 ^ 64 - 1 - s.time.toNat
  { s with
    time := s.time + BitVec.ofNat 64 (min (Config.idleTicks s.draws).toNat room)
    draws := s.draws + 1 }

/-- Waiting (42_transmitter_session.md R209): the block has no step, `TIME` advances, nothing else of the
block changes. The wait lasts to the host's next port change where that is planned: to its time, or,
when no offer is outstanding, as many ticks as the host lets pass before it (30_encoding.md R116). -/
def waitStep (s : State) : Result :=
  match s.host with
  | ⟨.atTime t, _⟩ :: _ => .next { s with time := later s.time t }
  | ⟨.whenFree d, p⟩ :: rest =>
    if s.offering then .next s.waitFreely
    else
      match s.advance d.toNat with
      | none => .refused .clockWrap
      | some waited => .next { waited with host := ⟨.atTime waited.time, p⟩ :: rest }
  | [] => .next s.waitFreely

/-- What happens next, and whose step it is. -/
inductive Action where
  /-- The block enters the reset state. -/
  | reset
  /-- The host changes its ports. -/
  | portChange (p : Inputs) (rest : List HostEvent)
  /-- The offer of a port is transferred. -/
  | transfer (o : Offer)
  /-- A step of the repeat loop. -/
  | loop
  /-- The block has no step: time passes. -/
  | wait
deriving DecidableEq, Repr

/-- Which step comes next (42_transmitter_session.md R210): reset outranks everything (60_exceptions.md
R257); then the port changes whose time has come, since the block samples its ports as they are (log
10); while `rst` is 1 the block is held (70_reset_and_hazards.md R290); then the step of the phase. DESIGN CHOICE (log 32): a block that already
is in the reset state when `rst` rises takes no reset step, so its registers and entries without a reset
value keep what they held. -/
def State.nextAction (s : State) : Action :=
  if s.inputs.rst && !s.inReset then .reset
  else
    match s.dueEvent with
    | some (p, rest) => .portChange p rest
    | none =>
      if s.busy then .loop
      else
        match s.handshake with
        | some o => .transfer o
        | none => .wait

/-- Nothing but the word `w` is offered, so that the next step takes it: on the port that
`tableOffer` says, in the phase in which that port is ready. -/
def State.present (s : State) (o : Offer) : State :=
  match o with
  | .command w d =>
    { s with phase := .idle, host := [], inputs := ⟨false, false, 0#16, true, w, d⟩ }
  | .config id =>
    { s with phase := .unconfigured, host := [], inputs := ⟨false, true, id, false, 0#16, 0#32⟩ }

end Sys2Proof.Machine
end

