-- ==== Sys2Proof/Machine/Step.lean ====
section
/-! DEFINITION. One step of the machine, and where the next step finds its instruction. -/

namespace Sys2Proof.Machine

/-- One step: the action that comes next (42_transmitter_session.md R210). A handshake decodes the offer
and runs the instruction, or takes the fault of an illegal word (60_exceptions.md R252, R253). -/
def step (s : State) : Host.Outcome State Fault Refusal :=
  match s.nextAction with
  | .reset => .next s.resetStep
  | .portChange p rest => .next (s.drivePorts p rest)
  | .transfer o =>
    match decodeOffer o with
    | .legal i => exec i (s.lower o)
    | .illegal cause => .next ((s.lower o).takeFault cause)
  | .loop => loopStep Config.taken s
  | .wait => waitStep s

/-- The state in which the next step takes the table's word `w` (log 18): the block fetches no
instructions (10_state.md R38), so the word is offered on its port, in the phase in which that port is
ready, with nothing else offered or planned. -/
def State.withFetchWord (s : State) (nbits w : Nat) : State :=
  s.present (tableOffer (w % 2 ^ nbits))

end Sys2Proof.Machine
end

