-- ==== Sys2Proof/Machine/Assembler.lean ====
section
/-! DEFINITION. The host programs of 30_encoding.md R116 and R117: what a line stands for, which lines the
assembler refuses, and how a program comes to be run (log 18). The assembler is no part of the block. -/

namespace Sys2Proof.Machine

/-- The lines of a host program, with their operands as written (30_encoding.md R116, R117). -/
inductive Line where
  | configure (id : Nat)
  | shock (ch strength duration : Nat)
  | vibrate (ch strength duration : Nat)
  | beep (ch duration : Nat)
  | shockMs (ch strength ms : Nat)
  | vibrateMs (ch strength ms : Nat)
  | beepMs (ch ms : Nat)
  | wait (t : Nat)
deriving DecidableEq, Repr

/-- The wire code of channel number `ch`, `none` for a number that is no channel (30_encoding.md R110). -/
def channelCode (ch : Nat) : Option (BitVec 4) :=
  if Config.channelSelBase ≤ ch ∧ ch ≤ Config.channelSelBase + 2 then
    some (BitVec.ofNat 4 (ch - Config.channelSelBase))
  else none

/-- An operand in a field of `n` bits, `none` when it does not fit (the ranges of 30_encoding.md R116, log
24). -/
def operand (n v : Nat) : Option (BitVec n) := if v < 2 ^ n then some (BitVec.ofNat n v) else none

/-- A millisecond operand as a duration: the exact product, `none` above `MS_MAX` (43_commands.md R227). -/
def msDuration (ms : Nat) : Option Duration :=
  if ms ≤ Config.msMax then some (BitVec.ofNat 32 (ms * Config.msTicks)) else none

/-- The instruction of a line; `none` for WAIT, which is no operation of the block, and for a line the
assembler refuses. -/
def Line.instr : Line → Option Instr
  | .configure id => return .configure (← operand 16 id)
  | .shock ch st d => return .shock (← channelCode ch) (← operand 8 st) (← operand 32 d)
  | .vibrate ch st d => return .vibrate (← channelCode ch) (← operand 8 st) (← operand 32 d)
  | .beep ch d => return .beep (← channelCode ch) (← operand 32 d)
  | .shockMs ch st ms => return .shock (← channelCode ch) (← operand 8 st) (← msDuration ms)
  | .vibrateMs ch st ms => return .vibrate (← channelCode ch) (← operand 8 st) (← msDuration ms)
  | .beepMs ch ms => return .beep (← channelCode ch) (← msDuration ms)
  | .wait _ => none

/-- The ports while one value is offered and nothing else. -/
def Inputs.offering : Offer → Inputs
  | .command w d => ⟨false, false, 0#16, true, w, d⟩
  | .config id => ⟨false, true, id, false, 0#16, 0#32⟩

/-- What the host does for a line: it offers the instruction's word as soon as the block is free, and
holds it until the handshake; for WAIT it lets the ticks pass with nothing offered (30_encoding.md R116,
42_transmitter_session.md R209). `none` for a refused line. -/
def Line.event : Line → Option HostEvent
  | .wait t => return ⟨.whenFree (← operand 64 t), .quiet⟩
  | l => return ⟨.whenFree 0, .offering (encode (← l.instr))⟩

/-- A program as the host's port changes; `none` when a line is refused. -/
def assemble : List Line → Option (List HostEvent)
  | [] => some []
  | l :: rest => return (← l.event) :: (← assemble rest)

/-- The host is given a program: the load from outside that makes a program run from `State.reset` (log
18). -/
def State.loadProgram (s : State) (prog : List Line) : Option State :=
  return { s with host := ← assemble prog }

end Sys2Proof.Machine
end

