-- ==== Sys2Proof/Machine/Observation.lean ====
section
/-! DEFINITION. The waveform of a trace (10_state.md R52), in the terms claims about the pin use. -/

namespace Sys2Proof.Machine

/-- How long a trace lasts, in microseconds. -/
def traceTicks : List Segment → Nat
  | [] => 0
  | g :: rest => g.ticks.toNat + traceTicks rest

/-- How long the pin is high in a trace, in microseconds (40_frame_encoder.md R150). -/
def highTicks : List Segment → Nat
  | [] => 0
  | g :: rest => (if g.level then g.ticks.toNat else 0) + highTicks rest

/-- The level `x` microseconds after a trace whose segments follow each other without a break began, and
low from its end on (10_state.md R52). -/
def levelAt : List Segment → Nat → Level
  | [], _ => Config.txIdle
  | g :: rest, x => if x < g.ticks.toNat then g.level else levelAt rest (x - g.ticks.toNat)

/-- The waveform of such a trace that starts at time `t0`: a function from time to level, low before `t0`
(10_state.md R52). -/
def waveformFrom (t0 : Nat) (tr : List Segment) (x : Nat) : Level :=
  if x < t0 then Config.txIdle else levelAt tr (x - t0)

/-- A segment that began at a time lasts at time `x`. -/
def lastsAt (x : Nat) (p : Ticks × Segment) : Bool :=
  decide (p.1.toNat ≤ x) && decide (x < p.1.toNat + p.2.ticks.toNat)

/-- The waveform of segments with the times at which they began: the level of the segment that lasts at
time `x`, and low where none does: before the first, between commands and after the last (10_state.md
R52). -/
def waveform (l : List (Ticks × Segment)) (x : Nat) : Level :=
  ((l.find? (lastsAt x)).map (fun p => p.2.level)).getD Config.txIdle

/-- The waveform of `TRACE` as the state has it, over all commands since reset (10_state.md R52, log
31). -/
def State.waveform (s : State) (x : Nat) : Level := Machine.waveform (s.starts.zip s.trace) x

/-- How many pulses a trace has: the changes from low to high, the pin being at `l` before
(41_pulse_driver.md R176). -/
def pulses (l : Level) : List Segment → Nat
  | [] => 0
  | g :: rest => (if l = low ∧ g.level = high then 1 else 0) + pulses g.level rest

/-- The segments of a list of entries played from level `l` on: the level flips after each entry
(41_pulse_driver.md R171, R174). -/
def segmentsFrom (l : Level) : List Entry → List Segment
  | [] => []
  | t :: rest => ⟨l, t⟩ :: segmentsFrom (!l) rest

/-- The segments of one frame: entry 0 is played low (41_pulse_driver.md R174, R176). -/
def frameSegments (entries : List Entry) : List Segment := segmentsFrom low entries

end Sys2Proof.Machine
end

