-- ==== Sys2Proof/Safety.lean ====
section
/-! DEFINITION. What a good state and a safe run are, in the terms claims use: the invariants of the
machine, the end of a run, what an accepted command leaves, and when two states behave alike. -/

namespace Sys2Proof.Machine

/-- A command is loaded: the operand registers are legal, and `CHK`, `FRAME_LEN` and the frame buffer are
what ENCODE writes for them (10_state.md R32 to R35, R44; 20_memory.md R80, R84). -/
structure Loaded (s : State) : Prop where
  chanLegal : legalChannel s.chan = true
  cmdLegal : legalCommand s.cmd = true
  beepStrength : s.cmd = 3#4 → s.strength = 0#8
  chkOfOperands : s.chk = checksum s.deviceId s.chan s.cmd s.strength
  lengthIs89 : s.frameLen = 89#8
  entries : ∀ k, k < 89 → (encodeFrame s.deviceId s.chan s.cmd s.strength)[k]? =
    some (s.frame.read (BitVec.ofNat 7 k))

/-- The invariant of the machine. It holds at reset and every step keeps it. -/
structure Inv (s : State) : Prop where
  /-- The frame buffer is in canonical form. -/
  frameWf : s.frame.wf = true
  /-- The pin is low whenever no frame is being played (10_state.md R42). -/
  pinLow : s.phase ≠ .drive → s.txOut = low
  /-- In phase DRIVE, `LEVEL` is `IDX mod 2` (41_pulse_driver.md R174). -/
  levelParity : s.phase = .drive → s.level = decide (s.idx.toNat % 2 = 1)
  /-- In phase DRIVE, `IDX` is at most `FRAME_LEN` (10_state.md R40). -/
  idxBound : s.phase = .drive → s.idx.toNat ≤ s.frameLen.toNat
  /-- `IDX` takes the values 0 to 89 only (10_state.md R40). -/
  idxRange : s.idx.toNat ≤ 89
  /-- `FRAME_LEN` is 0 after reset and 89 after any ENCODE (10_state.md R44). -/
  lenRange : s.frameLen = 0#8 ∨ s.frameLen = 89#8
  /-- `FAULT_CAUSE` is not NONE exactly in phase FAULT (10_state.md R43). -/
  causePhase : s.faultCause ≠ .none ↔ s.phase = .fault
  /-- An unconfigured block is in the reset state (10_state.md R56). -/
  fresh : s.phase = .unconfigured → s.inReset = true
  /-- Each segment of `TRACE` has the time at which it began (log 31). -/
  startsMatch : s.starts.length = s.trace.length
  /-- While a command is in progress it is loaded. -/
  loaded : s.busy = true → Loaded s

/-- The ticks of the entries still to be played in the frame in progress. -/
def State.frameTicksLeft (s : State) : Nat :=
  match s.phase with
  | .drive =>
    (((encodeFrame s.deviceId s.chan s.cmd s.strength).drop s.idx.toNat).map BitVec.toNat).sum
  | _ => 0

/-- The host will raise `rst` at the present time. -/
def State.resetPending (s : State) : Bool := (resetBefore (s.time.toNat + 1) s.time s.host).isSome

/-- The counter has room for the rest of the command in progress, unless a reset is about to end it: the
premise of 42_transmitter_session.md R204, as it stands in the middle of a command. -/
def ClockRoom (s : State) : Prop :=
  s.busy = true → s.inputs.rst = false → s.resetPending = false →
    s.time.toNat + s.frameTicksLeft
      + loopTicks Config.taken (s.deadline.toNat - (s.time.toNat + s.frameTicksLeft)) < 2 ^ 64

/-- No port change is planned for a time of the counter: the host goes on only when the block is free, as
the host of a program does (30_encoding.md R116). -/
def State.closedLoop (s : State) : Bool :=
  s.host.all (fun e => match e.moment with | .whenFree _ => true | .atTime _ => false)

/-- The run of a program is over (42_transmitter_session.md R208): every line has had its handshake, nothing
is offered, and the block is idle, or unconfigured where the program is empty. -/
def State.runOver (program : List Line) (s : State) : Bool :=
  s.host.isEmpty && !s.offering &&
    (s.phase == .idle || (program.isEmpty && s.phase == .unconfigured))

/-- Every segment of `TRACE` has run its whole time by now. A reset in the middle of an entry leaves one
that has not (70_reset_and_hazards.md R292). -/
def State.traceEnded (s : State) : Prop :=
  s.starts.length = s.trace.length ∧
    ∀ p ∈ s.starts.zip s.trace, p.1.toNat + p.2.ticks.toNat ≤ s.time.toNat

/-- What an acceptance makes of state `s` (42_transmitter_session.md R194): the operand latches, the
checksum, the length, the deadline, the phase and the 89 entries; every other register and every other
entry as before. -/
def Accepted (s t : State) (chan cmd : BitVec 4) (strength : BitVec 8) (d : Duration) : Prop :=
  t = { s with
        chan := chan
        cmd := cmd
        strength := strength
        chk := checksum s.deviceId chan cmd strength
        deadline := s.time + d.setWidth 64
        frame := t.frame
        frameLen := 89#8
        frames := 0
        phase := .check } ∧
  (∀ k, k < 89 → (encodeFrame s.deviceId chan cmd strength)[k]? =
    some (t.frame.read (BitVec.ofNat 7 k))) ∧
  ∀ i : EntryIndex, 89 ≤ i.toNat → t.frame.read i = s.frame.read i

/-- The clock has room for a command of duration `d` accepted in state `s`: its last frame ends by 2^64 -
1 (42_transmitter_session.md R204, R199). -/
def roomFor (s : State) (d : Duration) : Prop :=
  s.time.toNat + (d.toNat + 47443) / 47444 * 47444 < 2 ^ 64

/-- Two states that agree in all that can matter from here on: what no later step reads before it is
written again may differ (10_state.md R30, R56; 42_transmitter_session.md R205). -/
structure SameLive (s t : State) : Prop where
  phase : s.phase = t.phase
  txOut : s.txOut = t.txOut
  faultCause : s.faultCause = t.faultCause
  time : s.time = t.time
  inputs : s.inputs = t.inputs
  host : s.host = t.host
  trace : s.trace = t.trace
  starts : s.starts = t.starts
  frames : s.frames = t.frames
  draws : s.draws = t.draws
  deviceId : s.phase ≠ .unconfigured → s.deviceId = t.deviceId
  fresh : s.phase = .unconfigured → s.idx = t.idx ∧ s.level = t.level ∧ s.frameLen = t.frameLen
  operands : s.busy = true → s.chan = t.chan ∧ s.cmd = t.cmd ∧ s.strength = t.strength ∧ s.chk = t.chk
  loop : s.busy = true → s.deadline = t.deadline ∧ s.frameLen = t.frameLen ∧
    ∀ i : EntryIndex, i.toNat < s.frameLen.toNat → s.frame.read i = t.frame.read i
  driver : s.phase = .drive → s.idx = t.idx ∧ s.level = t.level

/-- Two results that agree in all that can matter. -/
def SameResult : Result → Result → Prop
  | .next s, .next t => SameLive s t
  | .fault a, .fault b => a = b
  | .refused a, .refused b => a = b
  | _, _ => False

/-- A result with the input ports replaced by `p`. -/
def withInputs (p : Inputs) : Result → Result
  | .next t => .next { t with inputs := p }
  | .fault r => .fault r
  | .refused r => .refused r

end Sys2Proof.Machine
end

