-- ==== Sys2Proof/Certificates/Slice0/Obligations.lean ====
section
/-! DEFINITION. The statements for the provers. Each docstring says which rule of the spec it formalises.
None is about a program; the premises are about the state and the operands alone. -/

open Sys2Proof Sys2Proof.Machine

/-! ### Encodings -/

/-- Decoding what the encoder writes gives the instruction back (30_encoding.md R118: "Encoding is the
inverse on legal instructions"), and nothing else decodes to it but, for a BEEP, the words that differ in
the ignored strength field. -/
def Obligations.DecodeEncodeRoundTrip : Prop :=
  (∀ i : Instr, i.wf = true → decodeOffer (encode i) = .legal i) ∧
  ∀ (o : Offer) (i : Instr), decodeOffer o = .legal i →
    i.wf = true ∧ (o = encode i ∨
      ∃ chan strength d, i = .beep chan d ∧ o = .command (commandWord chan 3#4 strength) d)

/-- Encoding what a legal word decodes to gives the word back, but for the strength field of a BEEP, which
comes back 0; and only well-formed instructions are decoded (30_encoding.md R118). -/
def Obligations.EncodeDecodeRoundTrip : Prop :=
  ∀ (w : BitVec 16) (d : Duration) (i : Instr), decodeOffer (.command w d) = .legal i →
    i.wf = true ∧ encode i = .command (if cmdField w = 3#4 then w &&& 0xFF00#16 else w) d

/-- The opcode map, in arithmetic on the word (30_encoding.md R104). -/
def Obligations.DecodingFollowsTheOpcodeMap : Prop :=
  ∀ (w : BitVec 16) (d : Duration),
    (2 < w.toNat / 4096 → decodeOffer (.command w d) = .illegal .illegalChannel) ∧
    (w.toNat / 4096 ≤ 2 →
      (w.toNat / 256 % 16 = 1 → decodeOffer (.command w d) =
        .legal (.shock (BitVec.ofNat 4 (w.toNat / 4096)) (BitVec.ofNat 8 (w.toNat % 256)) d)) ∧
      (w.toNat / 256 % 16 = 2 → decodeOffer (.command w d) =
        .legal (.vibrate (BitVec.ofNat 4 (w.toNat / 4096)) (BitVec.ofNat 8 (w.toNat % 256)) d)) ∧
      (w.toNat / 256 % 16 = 3 → decodeOffer (.command w d) =
        .legal (.beep (BitVec.ofNat 4 (w.toNat / 4096)) d)) ∧
      (w.toNat / 256 % 16 = 0 ∨ 4 ≤ w.toNat / 256 % 16 →
        decodeOffer (.command w d) = .illegal .illegalCommand)) ∧
    ∀ id : BitVec 16, decodeOffer (.config id) = .legal (.configure id)

/-- Words of 95_test_vectors.md (W1, W4, W6, W12, W15, A11) decode as that file says. -/
def Obligations.SampleWordsDecode : Prop :=
  decodeOffer (.command 0x0300 0) = .legal (.beep 0 0) ∧
  decodeOffer (.command 0x0263 0x001E8480) = .legal (.vibrate 0 99 2000000) ∧
  decodeOffer (.command 0x2163 0x0007A120) = .legal (.shock 2 99 500000) ∧
  decodeOffer (.command 0x2F63 0) = .illegal .illegalCommand ∧
  decodeOffer (.command 0x3000 0) = .illegal .illegalChannel ∧
  decodeOffer (.config 0x0D25) = .legal (.configure 0x0D25)

/-- In a BEEP word the strength field is ignored: two BEEP words that differ in nothing else decode alike,
and the block does the same on both; the word is legal whenever its channel is, and the effective strength
is 0 (30_encoding.md R114). -/
def Obligations.BeepIgnoresItsStrengthField : Prop :=
  ∀ (w v : BitVec 16) (d : Duration) (s : State), cmdField w = 3#4 → w.toNat / 256 = v.toNat / 256 →
    decodeOffer (.command w d) = decodeOffer (.command v d) ∧
    offerCommand w d s = offerCommand v d s ∧
    offerCommand w d s = offerCommand (w &&& 0xFF00#16) d s ∧
    (legalChannel (chanField w) = true →
      decodeOffer (.command w d) = .legal (.beep (chanField w) d)) ∧
    (s.latch w).strength = 0#8

/-- For SHOCK and VIBRATE the command word is, bit for bit, payload bits `P[25:10]` (30_encoding.md
R101, R106). -/
def Obligations.CommandWordIsPayloadBits : Prop :=
  ∀ (id w : BitVec 16),
    (payload id (chanField w) (cmdField w) (strengthField w)).extractLsb' 10 16 = w

/-! ### The instructions -/

/-- CONFIGURE (42_transmitter_session.md R190): in phase UNCONFIGURED it writes the id and the phase and
nothing else, in no time, whether run alone or taken from the port by a step (of which this says nothing
about the input ports, which are the host's). -/
def Obligations.ConfigureTakesTheId : Prop :=
  (∀ (id : BitVec 16) (s : State), s.phase = .unconfigured → s.inputs.rst = false →
    ∃ t, exec (.configure id) s = .next t ∧ t = { s with deviceId := id, phase := .idle } ∧
      s.cfgReady = true ∧ s.cmdReady = false ∧ t.cfgReady = false ∧ t.cmdReady = true) ∧
  ∀ s : State, s.phase = .unconfigured → s.inputs.rst = false → s.inputs.cfgValid = true →
    s.dueEvent = none →
    ∃ t, step s = .next t ∧
      t = { s with inputs := t.inputs, deviceId := s.inputs.cfgId, phase := .idle }

/-- CONFIGURE once only (42_transmitter_session.md R191): in any other phase an id is not taken and has no
effect; `DEVICE_ID` keeps its value, and the block stays configured, at every step but a reset. -/
def Obligations.DeviceIdIsTakenOnce : Prop :=
  ∀ s : State, s.phase ≠ .unconfigured →
    s.cfgReady = false ∧ (∀ id : BitVec 16, exec (.configure id) s = .next s) ∧
    ∀ t, s.inputs.rst = false → step s = .next t →
      t.deviceId = s.deviceId ∧ t.phase ≠ .unconfigured

/-- SHOCK completes (43_commands.md R221, 42_transmitter_session.md R194): in IDLE a legal channel is
accepted with command code 1 and the strength as given; what is left unchanged is everything `Accepted`
does not name. -/
def Obligations.ShockIsAccepted : Prop :=
  ∀ (chan : BitVec 4) (strength : BitVec 8) (d : Duration) (s : State), legalChannel chan = true →
    s.phase = .idle → s.inputs.rst = false → roomFor s d →
    ∃ t, exec (.shock chan strength d) s = .next t ∧ Accepted s t chan 1#4 strength d

/-- VIBRATE completes (43_commands.md R222, 42_transmitter_session.md R194), with command code 2. -/
def Obligations.VibrateIsAccepted : Prop :=
  ∀ (chan : BitVec 4) (strength : BitVec 8) (d : Duration) (s : State), legalChannel chan = true →
    s.phase = .idle → s.inputs.rst = false → roomFor s d →
    ∃ t, exec (.vibrate chan strength d) s = .next t ∧ Accepted s t chan 2#4 strength d

/-- BEEP completes (43_commands.md R223, 42_transmitter_session.md R194), with command code 3 and strength
0. -/
def Obligations.BeepIsAccepted : Prop :=
  ∀ (chan : BitVec 4) (d : Duration) (s : State), legalChannel chan = true →
    s.phase = .idle → s.inputs.rst = false → roomFor s d →
    ∃ t, exec (.beep chan d) s = .next t ∧ Accepted s t chan 3#4 0#8 d

/-- Acceptance of whatever word is offered (42_transmitter_session.md R194): the channel check, the
command check, then the latches, ENCODE and the deadline; a faulting word writes nothing but the cause
and the phase, whatever else the word and the duration hold (60_exceptions.md R252, R253). Nothing is said
here about the input ports, which are the host's. -/
def Obligations.AcceptanceFollowsTheWord : Prop :=
  ∀ s : State, s.phase = .idle → s.inputs.rst = false → s.inputs.cmdValid = true →
    s.dueEvent = none →
    let w := s.inputs.cmdWord
    (2 < (chanField w).toNat →
      ∃ t, step s = .next t ∧
        t = { s with inputs := t.inputs, faultCause := .illegalChannel, phase := .fault }) ∧
    ((chanField w).toNat ≤ 2 → (cmdField w).toNat = 0 ∨ 4 ≤ (cmdField w).toNat →
      ∃ t, step s = .next t ∧
        t = { s with inputs := t.inputs, faultCause := .illegalCommand, phase := .fault }) ∧
    ((chanField w).toNat ≤ 2 → 1 ≤ (cmdField w).toNat → (cmdField w).toNat ≤ 3 →
      roomFor s s.inputs.cmdDuration →
      ∃ t, step s = .next t ∧
        Accepted { s with inputs := t.inputs } t (chanField w) (cmdField w)
          (if cmdField w = 3#4 then 0#8 else strengthField w) s.inputs.cmdDuration)

/-- A command whose channel code is illegal faults with ILLEGAL_CHANNEL, whatever the strength and the
duration are (60_exceptions.md R252, R256). -/
def Obligations.IllegalChannelFaults : Prop :=
  ∀ (chan : BitVec 4) (strength : BitVec 8) (d : Duration) (s : State), 2 < chan.toNat →
    s.phase = .idle → s.inputs.rst = false →
    exec (.shock chan strength d) s =
      .next { s with faultCause := .illegalChannel, phase := .fault } ∧
    exec (.vibrate chan strength d) s =
      .next { s with faultCause := .illegalChannel, phase := .fault } ∧
    exec (.beep chan d) s = .next { s with faultCause := .illegalChannel, phase := .fault }

/-- One command at a time (42_transmitter_session.md R196): outside IDLE no command is taken, and a
command offered there changes nothing. -/
def Obligations.CommandsAreNotTakenOutsideIdle : Prop :=
  ∀ (chan : BitVec 4) (strength : BitVec 8) (d : Duration) (s : State), s.phase ≠ .idle →
    s.cmdReady = false ∧ exec (.shock chan strength d) s = .next s ∧
    exec (.vibrate chan strength d) s = .next s ∧ exec (.beep chan d) s = .next s

/-- A launch for which the counter has no room is refused (42_transmitter_session.md R204: "a model
refuses such a launch"). -/
def Obligations.LaunchPastTheClockIsRefused : Prop :=
  ∀ (chan : BitVec 4) (strength : BitVec 8) (d : Duration) (s : State), legalChannel chan = true →
    s.phase = .idle → s.inputs.rst = false → ¬ roomFor s d →
    exec (.shock chan strength d) s = .refused .clockOverflow ∧
    exec (.vibrate chan strength d) s = .refused .clockOverflow ∧
    exec (.beep chan d) s = .refused .clockOverflow

/-- A step runs the decoded instruction (42_transmitter_session.md R210): with `rst` 0 and no port change
due, the step at a handshake is `exec` of what the offer decodes to, at the state with that offer's
`valid` lowered (log 9). -/
def Obligations.StepRunsTheDecodedInstruction : Prop :=
  ∀ (s : State) (i : Instr), s.inputs.rst = false → s.dueEvent = none →
    (s.phase = .idle → s.inputs.cmdValid = true →
      decodeOffer (.command s.inputs.cmdWord s.inputs.cmdDuration) = .legal i →
      step s = exec i { s with inputs := { s.inputs with cmdValid := false } }) ∧
    (s.phase = .unconfigured → s.inputs.cfgValid = true →
      decodeOffer (.config s.inputs.cfgId) = .legal i →
      step s = exec i { s with inputs := { s.inputs with cfgValid := false } })

/-- No command before configuration (42_transmitter_session.md R192): in UNCONFIGURED `cmd_ready` is 0 and
no command has an effect; at every step but a reset nothing is encoded, the pin does not move (it is low)
and it is no fault; the block stays unconfigured until a CONFIGURE, and a command's offer stays untaken. -/
def Obligations.UnconfiguredBlockTakesNoCommand : Prop :=
  ∀ s : State, s.phase = .unconfigured →
    s.cmdReady = false ∧ s.faulted = false ∧ (s.inputs.rst = false → s.cfgReady = true) ∧
    (Inv s → s.txOut = low) ∧
    (∀ (w : BitVec 16) (d : Duration) (i : Instr), decodeOffer (.command w d) = .legal i →
      exec i s = .next s) ∧
    ∀ t, s.inputs.rst = false → step s = .next t →
      t.txOut = s.txOut ∧ t.frame = s.frame ∧ t.frameLen = s.frameLen ∧ t.trace = s.trace ∧
      t.faultCause = s.faultCause ∧
      (t.phase = .unconfigured ∨ s.inputs.cfgValid = true ∧ t.phase = .idle) ∧
      (s.dueEvent = none → t.inputs.cmdValid = s.inputs.cmdValid ∧ t.inputs.cmdWord = s.inputs.cmdWord ∧
        t.inputs.cmdDuration = s.inputs.cmdDuration)

/-! ### The frame encoder -/

/-- The checksum is the byte sum reduced mod 256, the sum being at most 770 for legal codes; ENCODE writes
it for the operand registers, the strength of a BEEP being 0 there (40_frame_encoder.md R141). -/
def Obligations.ChecksumIsTheWrappingByteSum : Prop :=
  (∀ (id : BitVec 16) (chan cmd : BitVec 4) (str : BitVec 8),
    (checksum id chan cmd str).toNat =
      (id.toNat / 256 + id.toNat % 256 + chan.toNat + cmd.toNat + str.toNat) % 256 ∧
    (chan.toNat ≤ 2 → cmd.toNat ≤ 3 →
      id.toNat / 256 + id.toNat % 256 + chan.toNat + cmd.toNat + str.toNat ≤ 770)) ∧
  (∀ s : State, s.encode.chk = checksum s.deviceId s.chan s.cmd s.strength) ∧
  (∀ (s : State) (w : BitVec 16), cmdField w = 3#4 → (s.latch w).strength = 0#8) ∧
  checksum 0x0D25 0 3 0 = 0x35 ∧ checksum 0xFFFF 2 2 255 = 0x01

/-- The wire bits of a payload, field by field, the most significant bit first (40_frame_encoder.md
R143). -/
def Obligations.PayloadBitsInWireOrder : Prop :=
  ∀ (id : BitVec 16) (chan cmd : BitVec 4) (str : BitVec 8),
    (∀ k, k < 16 → wireBit (payload id chan cmd str) k = id.getLsbD (15 - k)) ∧
    (∀ j, j < 4 → wireBit (payload id chan cmd str) (16 + j) = chan.getLsbD (3 - j)) ∧
    (∀ j, j < 4 → wireBit (payload id chan cmd str) (20 + j) = cmd.getLsbD (3 - j)) ∧
    (∀ j, j < 8 → wireBit (payload id chan cmd str) (24 + j) = str.getLsbD (7 - j)) ∧
    (∀ j, j < 8 → wireBit (payload id chan cmd str) (32 + j) =
      (checksum id chan cmd str).getLsbD (7 - j)) ∧
    wireBit (payload id chan cmd str) 40 = false ∧ wireBit (payload id chan cmd str) 41 = false ∧
    (chan.toNat ≤ 2 → cmd.toNat ≤ 3 →
      wireBit (payload id chan cmd str) 16 = false ∧ wireBit (payload id chan cmd str) 17 = false ∧
      wireBit (payload id chan cmd str) 20 = false ∧ wireBit (payload id chan cmd str) 21 = false)

/-- What ENCODE leaves in the buffer: the preamble, the pair of every bit, the trailer
(40_frame_encoder.md R144 to R146). -/
def Obligations.FrameFollowsTheMap : Prop :=
  ∀ s : State,
    let m := s.encode.frame
    let p := payload s.deviceId s.chan s.cmd s.strength
    m.read 0#7 = 840#16 ∧ m.read 1#7 = 1440#16 ∧ m.read 2#7 = 724#16 ∧
    (∀ k, k < 42 →
      m.read (BitVec.ofNat 7 (3 + 2 * k)) = (if wireBit p k then 804#16 else 292#16) ∧
      m.read (BitVec.ofNat 7 (4 + 2 * k)) = (if wireBit p k then 212#16 else 724#16)) ∧
    m.read 87#7 = 292#16 ∧ m.read 88#7 = 1476#16

/-- ENCODE writes exactly the entries 0 to 88, the checksum and the length 89; nothing else
(40_frame_encoder.md R148, R140; 20_memory.md R77). An entry from 89 on that nothing has written stays
a free value, and the same one (93 U6, log 2). -/
def Obligations.EncodeWritesExactly89Entries : Prop :=
  ∀ s : State,
    s.encode = { s with
      chk := checksum s.deviceId s.chan s.cmd s.strength, frame := s.encode.frame, frameLen := 89#8 } ∧
    (∀ i : EntryIndex, i.toNat < 89 → (s.encode.frame.written i).isSome = true) ∧
    ∀ i : EntryIndex, 89 ≤ i.toNat →
      s.encode.frame.written i = s.frame.written i ∧ s.encode.frame.read i = s.frame.read i

/-- The two entries of every bit sum to 1016 (40_frame_encoder.md R149); the other neighbours do not in
general: 840 + 1440, 724 + the first bit's entry (when that bit is 1), 292 + 1476. -/
def Obligations.BitPairsSumTo1016 : Prop :=
  ∀ s : State,
    let sum (i j : EntryIndex) : Nat := (s.encode.frame.read i).toNat + (s.encode.frame.read j).toNat
    (∀ k, k < 42 → sum (BitVec.ofNat 7 (3 + 2 * k)) (BitVec.ofNat 7 (4 + 2 * k)) = 1016) ∧
    sum 0#7 1#7 = 2280 ∧ sum 87#7 88#7 = 1768 ∧
    (s.deviceId.getLsbD 15 = true → sum 2#7 3#7 = 1528)

/-- Every frame lasts 47 444 microseconds, and the pin is high for 13 996 + 512 x `ones` of them, at
least one payload bit being 1 (40_frame_encoder.md R150). -/
def Obligations.FrameTimeAndHighTime : Prop :=
  ∀ (id : BitVec 16) (chan cmd : BitVec 4) (str : BitVec 8),
    let ones := (List.range 42).countP (wireBit (payload id chan cmd str))
    traceTicks (frameSegments (encodeFrame id chan cmd str)) = 47444 ∧
    highTicks (frameSegments (encodeFrame id chan cmd str)) = 13996 + 512 * ones ∧
    (legalCommand cmd = true → 1 ≤ ones)

/-- Every entry of a frame is one of seven values: at least 212, at most 1476 (40_frame_encoder.md
R152). -/
def Obligations.EntriesStayInRange : Prop :=
  ∀ (id : BitVec 16) (chan cmd : BitVec 4) (str : BitVec 8) (t : Entry),
    t ∈ encodeFrame id chan cmd str →
    t ∈ [212#16, 292#16, 724#16, 804#16, 840#16, 1440#16, 1476#16] ∧ 212 ≤ t.toNat ∧ t.toNat ≤ 1476

/-- Different operands give different frames (40_frame_encoder.md R153). -/
def Obligations.EncodeIsInjective : Prop :=
  ∀ (id id' : BitVec 16) (chan chan' cmd cmd' : BitVec 4) (str str' : BitVec 8),
    encodeFrame id chan cmd str = encodeFrame id' chan' cmd' str' →
    id = id' ∧ chan = chan' ∧ cmd = cmd' ∧ str = str'

/-- What varies between frames (40_frame_encoder.md R154): the length, the preamble, the trailer, the
padding and the high bits of the two codes never do; a bit's pair is one of two; a strength changes the
entries 51 to 82 only. -/
def Obligations.FramesVaryInTheirFieldsOnly : Prop :=
  ∀ (id : BitVec 16) (chan cmd : BitVec 4) (str str' : BitVec 8),
    chan.toNat ≤ 2 → cmd.toNat ≤ 3 →
    let f := encodeFrame id chan cmd str
    (f.length = 89 ∧ f.take 3 = [840#16, 1440#16, 724#16] ∧
      f.drop 83 = [292#16, 724#16, 292#16, 724#16, 292#16, 1476#16] ∧
      (f.drop 35).take 4 = [292#16, 724#16, 292#16, 724#16] ∧
      (f.drop 43).take 4 = [292#16, 724#16, 292#16, 724#16]) ∧
    (∀ k, k < 42 → (f[3 + 2 * k]? = some 292#16 ∧ f[4 + 2 * k]? = some 724#16) ∨
      (f[3 + 2 * k]? = some 804#16 ∧ f[4 + 2 * k]? = some 212#16)) ∧
    ∀ i, i < 51 ∨ 83 ≤ i → f[i]? = (encodeFrame id chan cmd str')[i]?

/-! ### The pin -/

/-- One frame on the pin, in time order (30_encoding.md R108), as the waveform of a trace that starts at
`t0` (10_state.md R52): low before; low 840, high 1440, low 724; for each bit high for 292 or 804 of its
1016; high 292, low 1476; 47 444 in all, and low from there on. -/
def Obligations.FrameOnThePin : Prop :=
  ∀ (p : BitVec 42) (t0 : Nat),
    let level := fun x => waveformFrom t0 (frameSegments (frameOf p)) (t0 + x)
    (∀ x, x < t0 → waveformFrom t0 (frameSegments (frameOf p)) x = low) ∧
    (∀ x, x < 840 → level x = low) ∧
    (∀ x, 840 ≤ x → x < 2280 → level x = high) ∧
    (∀ x, 2280 ≤ x → x < 3004 → level x = low) ∧
    (∀ k x, k < 42 → x < 1016 →
      level (3004 + 1016 * k + x) = decide (x < if wireBit p k then 804 else 292)) ∧
    (∀ x, 45676 ≤ x → x < 45968 → level x = high) ∧
    (∀ x, 45968 ≤ x → level x = low) ∧
    traceTicks (frameSegments (frameOf p)) = 47444

/-- A frame is 89 segments with 44 high pulses (41_pulse_driver.md R176). -/
def Obligations.FrameHas44Pulses : Prop :=
  ∀ (p : BitVec 42),
    (frameSegments (frameOf p)).length = 89 ∧ pulses low (frameSegments (frameOf p)) = 44

/-- Entry step (41_pulse_driver.md R172), when the host does not reset the block during the hold: the pin
takes `LEVEL` and keeps it, the segment is observed, beginning now, `TIME` grows by the entry, `LEVEL`
flips, `IDX` grows by 1, and nothing else changes. That `IDX` goes from 127 to 0, where no run comes
(10_state.md R40), is the model's choice (log 30), and that the start of the segment is kept is the
model's way to know the waveform (log 31). -/
def Obligations.EntryStepPlaysOneEntry : Prop :=
  ∀ (s : State) (t : Entry), s.phase = .drive → s.idx.toNat < s.frameLen.toNat →
    s.frame.read s.idx = t → s.inputs.rst = false → s.dueEvent = none →
    resetBefore (s.time.toNat + t.toNat) s.time s.host = none →
    s.time.toNat + t.toNat < 2 ^ 64 →
    step s = .next { s with
      txOut := s.level
      trace := s.trace ++ [⟨s.level, t⟩]
      starts := s.starts ++ [s.time]
      time := s.time + BitVec.ofNat 64 t.toNat
      level := !s.level
      idx := s.idx + 1#7 }

/-- Frame-end step (41_pulse_driver.md R175): the pin low, one frame more, the phase CHECK, no time, no
segment; `LEVEL` and `IDX` keep their last values, 1 and 89. -/
def Obligations.FrameEndForcesThePinLow : Prop :=
  ∀ s : State, s.phase = .drive → s.idx.toNat = s.frameLen.toNat → s.inputs.rst = false →
    s.dueEvent = none →
    step s = .next { s with txOut := low, frames := s.frames + 1, phase := .check } ∧
    (Inv s → s.idx = 89#7 ∧ s.level = high)

/-- DRIVE over an arbitrary list of entries leaves the pin low, the empty list included, with any
overheads (41_pulse_driver.md R180, R171, R179). For lists of every length this is said of the algorithm
over the list. It is what the steps of the block do with the buffer for every list whose end the 7-bit
`IDX` can reach, up to 127 entries, from 0 on (log 30), with no reset and room on the clock: each entry
once, alternating from low, one frame counted, in the sum of the entries and the gaps. -/
def Obligations.DriveOfAnyListEndsLow : Prop :=
  (∀ (tm : Config.Timing) (s : State) (l : List Entry),
    let t := State.playList tm l s
    t.txOut = low ∧ t.phase = .check ∧ t.frames = s.frames + 1 ∧
    t.trace = s.trace ++ segmentsFrom s.level l) ∧
  ∀ (tm : Config.Timing) (s : State) (l : List Entry), s.phase = .drive → s.idx = 0#7 →
    s.level = low → l.length ≤ 127 → s.frameLen.toNat = l.length →
    (∀ k, k < l.length → l[k]? = some (s.frame.read (BitVec.ofNat 7 k))) → s.closedLoop = true →
    s.time.toNat + ((l.map BitVec.toNat).sum + l.length * tm.tGap) < 2 ^ 64 →
    ∃ t, loopRun tm (l.length + 1) s = .next t ∧
      t = { State.playList tm l s with idx := BitVec.ofNat 7 l.length } ∧
      t.trace = s.trace ++ frameSegments l ∧
      t.time.toNat = s.time.toNat + ((l.map BitVec.toNat).sum + l.length * tm.tGap)

/-! ### The repeat loop -/

/-- Deadline test step (42_transmitter_session.md R198): unsigned and strict; the pin is low throughout
phase CHECK. -/
def Obligations.DeadlineTestBranches : Prop :=
  ∀ s : State, s.phase = .check → s.inputs.rst = false → s.dueEvent = none →
    (s.time.toNat < s.deadline.toNat →
      step s = .next { s with level := low, phase := .drive, idx := 0#7 }) ∧
    (s.deadline.toNat ≤ s.time.toNat → step s = .next { s with phase := .idle }) ∧
    (Inv s → s.txOut = low)

/-- A command plays `ceil(D / 47 444)` whole frames back to back and then is idle again
(42_transmitter_session.md R199, R206; 43_commands.md R220): from the handshake, `2 + 91 N` steps later,
when the host plans no port change for a fixed time (no reset among them). Where the earlier segments
have run their time, the waveform is as it was before the handshake, and from there on that of the `N`
frames, low after the last (10_state.md R52). -/
def Obligations.CommandPlaysCeilFrames : Prop :=
  ∀ (s : State) (i : Instr), s.phase = .idle → s.inputs.rst = false → s.inputs.cmdValid = true →
    decodeOffer (.command s.inputs.cmdWord s.inputs.cmdDuration) = .legal i →
    s.txOut = low → s.closedLoop = true → roomFor s s.inputs.cmdDuration →
    let w := s.inputs.cmdWord
    let n := (s.inputs.cmdDuration.toNat + 47443) / 47444
    let frame := encodeFrame s.deviceId (chanField w) (cmdField w)
      (if cmdField w = 3#4 then 0#8 else strengthField w)
    ∃ t, core.run (2 + 91 * n) s = .next t ∧ t.phase = .idle ∧ t.txOut = low ∧
      t.deviceId = s.deviceId ∧ t.frames = n ∧ t.time.toNat = s.time.toNat + n * 47444 ∧
      t.trace = s.trace ++ (List.replicate n (frameSegments frame)).flatten ∧
      (s.traceEnded → t.traceEnded ∧ ∀ x, t.waveform x =
        if x < s.time.toNat then s.waveform x
        else waveformFrom s.time.toNat (List.replicate n (frameSegments frame)).flatten x) ∧
      t.host = s.host ∧ t.inputs = { s.inputs with cmdValid := false }

/-- What holds of the repeat loop whatever the overheads `T_CHK` and `T_GAP` are
(42_transmitter_session.md R203): it ends; whole, identical frames; none for a deadline not in the
future; at least one if the first test comes before the deadline; at most `ceil(D / F)`; never over
before the deadline; the pin low at the end. The clock is the model's one counter (log 6). -/
def Obligations.RepeatLoopWithAnyOverheads : Prop :=
  ∀ (tm : Config.Timing) (s : State), s.phase = .check → Loaded s → s.txOut = low →
    s.closedLoop = true →
    s.time.toNat + loopTicks tm (s.deadline.toNat - s.time.toNat) < 2 ^ 64 →
    let d := s.deadline.toNat - s.time.toNat
    let frame := encodeFrame s.deviceId s.chan s.cmd s.strength
    ∃ n k t, loopRun tm k s = .next t ∧ t.phase = .idle ∧ t.txOut = low ∧
      t.frames = s.frames + n ∧
      t.trace = s.trace ++ (List.replicate n (frameSegments frame)).flatten ∧
      (d = 0 → n = 0) ∧ (tm.tChk < d → 1 ≤ n) ∧ n ≤ (d + 47443) / 47444 ∧
      s.time.toNat + d ≤ t.time.toNat ∧ s.time.toNat + n * 47444 ≤ t.time.toNat

/-- Zero duration (42_transmitter_session.md R201): accepted, no frame, no pin activity, no time; the
registers are rewritten; an illegal word still faults. -/
def Obligations.ZeroDurationSendsNothing : Prop :=
  ∀ s : State, s.phase = .idle → s.inputs.rst = false → s.inputs.cmdValid = true →
    s.dueEvent = none → s.inputs.cmdDuration = 0#32 →
    let w := s.inputs.cmdWord
    (legalChannel (chanField w) = true → legalCommand (cmdField w) = true →
      ∃ u, step s = .next u ∧ u.deadline = s.time ∧
        Accepted { s with inputs := u.inputs } u (chanField w) (cmdField w)
          (if cmdField w = 3#4 then 0#8 else strengthField w) 0#32 ∧
        step u = .next { u with phase := .idle }) ∧
    (legalChannel (chanField w) = false →
      ∃ u, step s = .next u ∧ u.phase = .fault ∧ u.faultCause = .illegalChannel) ∧
    (legalChannel (chanField w) = true → legalCommand (cmdField w) = false →
      ∃ u, step s = .next u ∧ u.phase = .fault ∧ u.faultCause = .illegalCommand)

/-- The count of frames and the overrun (42_transmitter_session.md R199, R200): for `d` from 1 on the
command lasts `N x F`, at least `d`, less than `d + F`, exactly `d` when `F` divides `d`; at most 90 528
frames. -/
def Obligations.OverrunIsLessThanOneFrame : Prop :=
  ∀ d : Nat, 1 ≤ d → d < 2 ^ 32 →
    let n := framesFor Config.taken d
    d ≤ n * 47444 ∧ n * 47444 - d ≤ 47443 ∧ (n * 47444 = d ↔ 47444 ∣ d) ∧ 1 ≤ n ∧ n ≤ 90528 ∧
    loopTicks Config.taken d = n * 47444

/-- In CHECK and DRIVE, `rst` being 0 and no port change due, the step of the machine is the step of the
repeat loop, and the host has none (42_transmitter_session.md R210). -/
def Obligations.BusyStepIsALoopStep : Prop :=
  ∀ s : State, s.busy = true → s.inputs.rst = false → s.dueEvent = none →
    step s = loopStep Config.taken s ∧ s.handshake = none

/-! ### Faults, waiting, reset, time -/

/-- Fault entry (60_exceptions.md R256): only from IDLE, at the handshake of an illegal word; it writes
the cause and the phase and nothing else of the block, in no time; the outputs in FAULT. Nothing is said
here about the input ports, which are the host's. -/
def Obligations.FaultEntryOnlyAtAHandshake : Prop :=
  ∀ s t : State, step s = .next t → s.phase ≠ .fault → t.phase = .fault →
    s.phase = .idle ∧ s.inputs.rst = false ∧ s.inputs.cmdValid = true ∧
    ∃ cause, decodeOffer (.command s.inputs.cmdWord s.inputs.cmdDuration) = .illegal cause ∧
      t = { s with inputs := t.inputs, faultCause := cause, phase := .fault } ∧
      t.faulted = true ∧ t.faultCausePort = cause.code ∧ t.cmdReady = false ∧ t.cfgReady = false ∧
      t.busy = false ∧ (Inv s → t.txOutPort = 0#1)

/-- No return from a fault (60_exceptions.md R258): while `rst` is 0 the phase, the cause and the pin stay,
no handshake is possible, and no instruction has an effect; with `rst` 1 the next step leaves the block
unconfigured. -/
def Obligations.FaultIsLeftByResetOnly : Prop :=
  ∀ s : State, s.phase = .fault →
    s.handshake = none ∧ (Inv s → s.txOut = low) ∧ (∀ i : Instr, exec i s = .next s) ∧
    (∀ t, s.inputs.rst = false → step s = .next t →
      t.phase = .fault ∧ t.faultCause = s.faultCause ∧ t.txOut = s.txOut) ∧
    (s.inputs.rst = true → ∃ t, step s = .next t ∧ t.phase = .unconfigured ∧ t.faultCause = .none)

/-- Waiting (42_transmitter_session.md R209): with no handshake pending only `TIME` advances (and, of the
model's own fields, the host's plan and the count of free values); a wait with no plan is never refused;
a pending handshake happens at once. -/
def Obligations.WaitingChangesOnlyTime : Prop :=
  ∀ s : State, s.busy = false → s.inputs.rst = false → s.dueEvent = none →
    (s.handshake = none → ∀ t, step s = .next t →
      t = { s with time := t.time, host := t.host, draws := t.draws } ∧ s.time ≤ t.time) ∧
    (s.handshake = none → s.host = [] → ∃ t, step s = .next t) ∧
    (s.handshake ≠ none → ∀ t, step s = .next t → t.time = s.time ∧ t.phase ≠ s.phase) ∧
    (Inv s → s.txOut = low)

/-- Reset (70_reset_and_hazards.md R290): while `rst` is 1 no handshake is possible; the next step enters
the reset state from any phase, in no time; the block is held there and starts from there when `rst`
falls. Nothing else leaves FAULT or changes a device id. -/
def Obligations.ResetHoldsTheBlock : Prop :=
  (∀ s : State, s.inputs.rst = true →
    s.cfgReady = false ∧ s.cmdReady = false ∧ s.handshake = none ∧
    (s.inReset = false → ∃ t, step s = .next t ∧ t.phase = .unconfigured ∧ t.idx = 0#7 ∧
      t.level = low ∧ t.txOut = low ∧ t.faultCause = .none ∧ t.frameLen = 0#8 ∧ t.time = s.time ∧
      t.inputs = s.inputs) ∧
    (s.inReset = true → ∀ t, step s = .next t → t.inReset = true)) ∧
  ∀ s t : State, s.inputs.rst = false → step s = .next t →
    (s.phase = .fault → t.phase = .fault) ∧
    (s.phase ≠ .unconfigured → t.deviceId = s.deviceId)

/-- Reset during a command (70_reset_and_hazards.md R292): if `rst` rises in the middle of a hold, three
steps later the block is in the reset state at that very time, the pin low; the entry's segment stays in
the trace whole. -/
def Obligations.ResetDuringAHoldAbandonsTheFrame : Prop :=
  ∀ (s : State) (t : Entry) (r : Ticks) (p : Inputs) (rest : List HostEvent),
    s.phase = .drive → s.idx.toNat < s.frameLen.toNat → s.frame.read s.idx = t →
    s.inputs.rst = false → s.host = ⟨.atTime r, p⟩ :: rest → p.rst = true → s.time < r →
    r.toNat < s.time.toNat + t.toNat →
    ∃ u, core.run 3 s = .next u ∧ u.inReset = true ∧ u.time = r ∧ u.txOut = low ∧
      u.trace = s.trace ++ [⟨s.level, t⟩] ∧ u.starts = s.starts ++ [s.time] ∧ u.frames = s.frames

/-- The observations start anew when `rst` falls (10_state.md R52, R56; the model's reading of when that
is, log 12), and the entry into reset does not yet touch them (the same reading). -/
def Obligations.ReleaseOfResetClearsTheObservations : Prop :=
  (∀ (s : State) (p : Inputs) (rest : List HostEvent), s.inputs.rst = true → s.inReset = true →
    s.dueEvent = some (p, rest) → p.rst = false →
    step s = .next { s with inputs := p, host := rest, trace := [], starts := [], frames := 0 }) ∧
  ∀ s : State, s.inputs.rst = true → s.inReset = false →
    ∃ t, step s = .next t ∧ t.trace = s.trace ∧ t.starts = s.starts ∧ t.frames = s.frames

/-- `TIME` never decreases (10_state.md R45). -/
def Obligations.TimeNeverDecreases : Prop :=
  ∀ s t : State, step s = .next t → s.time.toNat ≤ t.time.toNat

/-- The status outputs are functions of the phase (10_state.md R47, R54), the ready outputs being 0 while
`rst` is 1 (70_reset_and_hazards.md R290). -/
def Obligations.StatusFollowsThePhase : Prop :=
  ∀ s : State,
    (s.configured = true ↔ s.phase ≠ .unconfigured) ∧
    (s.cfgReady = true ↔ s.phase = .unconfigured ∧ s.inputs.rst = false) ∧
    (s.cmdReady = true ↔ s.phase = .idle ∧ s.inputs.rst = false) ∧
    (s.busy = true ↔ s.phase = .check ∨ s.phase = .drive) ∧
    (s.faulted = true ↔ s.phase = .fault) ∧
    s.txOutPort.toNat = s.txOut.toNat ∧ s.faultCausePort = s.faultCause.code

/-- What reset leaves, in the values the spec states (10_state.md R56), and the outputs. -/
def Obligations.ResetLeavesTheStatedValues : Prop :=
  let s := State.reset
  s.phase = .unconfigured ∧ s.idx = 0#7 ∧ s.level = low ∧ s.txOut = low ∧ s.faultCause = .none ∧
  s.frameLen = 0#8 ∧ s.trace = [] ∧ s.frames = 0 ∧ s.cfgReady = true ∧ s.cmdReady = false ∧
  s.busy = false ∧ s.faulted = false ∧ s.faultCausePort = 0#2 ∧ s.txOutPort = 0#1

/-! ### The whole machine -/

/-- The reset state meets the invariant. -/
def Obligations.ResetMeetsTheInvariant : Prop := Inv State.reset

/-- Every step keeps the invariant: the frame buffer in canonical form, the pin low outside DRIVE,
`LEVEL = IDX mod 2`, the ranges of `IDX` and `FRAME_LEN`, `FAULT_CAUSE` against the phase, and the frame
in the buffer that of the operand registers while a command is in progress (10_state.md R40 to R44,
41_pulse_driver.md R174, 20_memory.md R84). -/
def Obligations.StepKeepsTheInvariant : Prop :=
  ∀ s t : State, Inv s → step s = .next t → Inv t

/-- The clock's room for the command in progress is kept by every step (42_transmitter_session.md
R204). -/
def Obligations.StepKeepsTheClocksRoom : Prop :=
  ∀ s t : State, Inv s → ClockRoom s → step s = .next t → ClockRoom t

/-- No command can fail once accepted (43_commands.md R220): from a state that meets the invariant and has
room on its clock, a step in CHECK or DRIVE neither faults nor is refused. -/
def Obligations.AcceptedCommandNeverStops : Prop :=
  ∀ s : State, Inv s → ClockRoom s → s.busy = true → ∃ t, step s = .next t

/-- The machine never faults from a state that meets the invariant: the model's one fault of its own, no
step enabled in DRIVE, is never reached (41_pulse_driver.md R171, 10_state.md R40, log 15). -/
def Obligations.NoFaultFromTheInvariant : Prop :=
  ∀ (s : State) (f : Fault), Inv s → step s ≠ .fault f

/-- Nothing carries over (42_transmitter_session.md R205, 10_state.md R30, R56): states that agree in all
but what is rewritten before it is read take steps that agree likewise. -/
def Obligations.DormantStateIsUnobservable : Prop :=
  ∀ s t : State, SameLive s t → SameResult (step s) (step t)

/-- Latching (42_transmitter_session.md R195): while a command is in progress the operand ports have no
influence; only `rst` does. -/
def Obligations.BusyBlockIgnoresItsPorts : Prop :=
  ∀ (s : State) (p : Inputs), s.busy = true → s.inputs.rst = false → p.rst = false →
    s.dueEvent = none → step { s with inputs := p } = withInputs p (step s)

/-- From acceptance to the end of the command the operand registers, the deadline and the buffer are not
written (20_memory.md R80, R84; 10_state.md R55). -/
def Obligations.OperandsAreHeldDuringACommand : Prop :=
  ∀ s t : State, s.busy = true → s.inputs.rst = false → step s = .next t →
    t.deviceId = s.deviceId ∧ t.chan = s.chan ∧ t.cmd = s.cmd ∧ t.strength = s.strength ∧
    t.chk = s.chk ∧ t.deadline = s.deadline ∧ t.frameLen = s.frameLen ∧ t.frame = s.frame ∧
    t.faultCause = s.faultCause

/-- Who writes the frame buffer (10_state.md R48): only an acceptance, besides a reset. -/
def Obligations.OnlyAcceptanceWritesTheBuffer : Prop :=
  ∀ s t : State, step s = .next t → t.frame ≠ s.frame →
    (s.inputs.rst = true ∧ t.phase = .unconfigured) ∨
    (s.phase = .idle ∧ s.inputs.cmdValid = true ∧ t.phase = .check)

/-- What changes `TRACE` (10_state.md R52): an entry step appends its segment, which begins now; the release
of reset empties it; nothing else touches it. And the pin shows the waveform: where all earlier segments
have run their time, the waveform while a step takes time is the level of the pin after it, entry or
wait, idle between commands included. A step changes the waveform's past at the release of reset only,
and leaves a segment that has not run its time only where a reset is about to cut it short
(70_reset_and_hazards.md R292). -/
def Obligations.TraceGrowsByEntryStepsOnly : Prop :=
  ∀ s t : State, step s = .next t →
    (t.trace = s.trace ∧ t.starts = s.starts ∨
      (s.phase = .drive ∧ s.idx.toNat < s.frameLen.toNat ∧
        t.trace = s.trace ++ [⟨s.level, s.frame.read s.idx⟩] ∧ t.starts = s.starts ++ [s.time]) ∨
      (s.inputs.rst = true ∧ t.inputs.rst = false ∧ t.trace = [] ∧ t.starts = [])) ∧
    (s.traceEnded →
      (Inv s → ∀ x, s.time.toNat ≤ x → x < t.time.toNat → t.waveform x = t.txOut) ∧
      (s.inputs.rst = false ∨ t.inputs.rst = true →
        ∀ x, x < s.time.toNat → t.waveform x = s.waveform x) ∧
      (t.traceEnded ∨ s.phase = .drive ∧ t.resetPending = true))

/-- The end of a run (42_transmitter_session.md R208): every line has had its handshake and the block is
idle, or unconfigured if the program is empty; the pin is low, there is no fault, no command is in
progress and none is taken. The run of the empty program is over in the reset state itself. -/
def Obligations.RunOverRestsLow : Prop :=
  (∀ (program : List Line) (s : State), Inv s → s.runOver program = true →
    (s.phase = .idle ∨ program = [] ∧ s.phase = .unconfigured) ∧ s.host = [] ∧ s.txOut = low ∧
    s.faultCause = .none ∧ s.faulted = false ∧ s.busy = false ∧ s.handshake = none) ∧
  ∀ s : State, State.reset.loadProgram [] = some s → s.runOver [] = true

/-! ### The assembler -/

/-- Channel selectors (30_encoding.md R110): 1, 2 and 3 give the codes 0, 1 and 2, any other is refused. -/
def Obligations.ChannelSelectorsAreOneToThree : Prop :=
  ∀ n : Nat,
    (1 ≤ n → n ≤ 3 → ∃ c, channelCode n = some c ∧ c.toNat = n - 1) ∧
    (n = 0 ∨ 4 ≤ n → channelCode n = none)

/-- The millisecond forms (43_commands.md R227): up to 4 294 967 the base command with 1000 times the
operand, above that refused. -/
def Obligations.MillisecondFormsAreBaseCommands : Prop :=
  ∀ ch st ms : Nat,
    (ms ≤ 4294967 →
      (Line.shockMs ch st ms).instr = (Line.shock ch st (ms * 1000)).instr ∧
      (Line.vibrateMs ch st ms).instr = (Line.vibrate ch st (ms * 1000)).instr ∧
      (Line.beepMs ch ms).instr = (Line.beep ch (ms * 1000)).instr) ∧
    (4294967 < ms →
      (Line.shockMs ch st ms).event = none ∧ (Line.vibrateMs ch st ms).event = none ∧
      (Line.beepMs ch ms).event = none)

/-- The words the assembler writes (43_commands.md R221 to R223): `(ch-1)`, the command code, the
strength; and they decode to the line's instruction. -/
def Obligations.AssembledWordsAreTheEncodings : Prop :=
  ∀ ch st d : Nat, 1 ≤ ch → ch ≤ 3 → st < 256 → d < 2 ^ 32 →
    (∃ i, (Line.shock ch st d).instr = some i ∧ decodeOffer (encode i) = .legal i ∧
      encode i = .command (BitVec.ofNat 16 ((ch - 1) * 4096 + 256 + st)) (BitVec.ofNat 32 d)) ∧
    (∃ i, (Line.vibrate ch st d).instr = some i ∧ decodeOffer (encode i) = .legal i ∧
      encode i = .command (BitVec.ofNat 16 ((ch - 1) * 4096 + 512 + st)) (BitVec.ofNat 32 d)) ∧
    (∃ i, (Line.beep ch d).instr = some i ∧ decodeOffer (encode i) = .legal i ∧
      encode i = .command (BitVec.ofNat 16 ((ch - 1) * 4096 + 768)) (BitVec.ofNat 32 d))
end

