-- ==== Sys2Proof/Laws/Encoding.lean ====
section
/-! SUPPORT. The laws of the command word's fields. -/

namespace Sys2Proof

@[simp] theorem chanField_commandWord (c k : BitVec 4) (st : BitVec 8) :
    chanField (commandWord c k st) = c := by
  unfold chanField commandWord
  ext i hi
  simp only [BitVec.getElem_extractLsb', BitVec.getLsbD_append]
  simp [show ¬ (12 + i < 8) by omega, show ¬ (12 + i - 8 < 4) by omega,
    show 12 + i - 8 - 4 = i by omega, BitVec.getLsbD_eq_getElem hi]

@[simp] theorem cmdField_commandWord (c k : BitVec 4) (st : BitVec 8) :
    cmdField (commandWord c k st) = k := by
  unfold cmdField commandWord
  ext i hi
  simp only [BitVec.getElem_extractLsb', BitVec.getLsbD_append]
  simp [show ¬ (8 + i < 8) by omega, show 8 + i - 8 = i by omega, hi]

@[simp] theorem strengthField_commandWord (c k : BitVec 4) (st : BitVec 8) :
    strengthField (commandWord c k st) = st := by
  unfold strengthField commandWord
  ext i hi
  simp only [BitVec.getElem_extractLsb', BitVec.getLsbD_append]
  simp [hi]

/-- The fields as numbers (30_encoding.md R101). -/
theorem chanField_toNat (w : BitVec 16) : (chanField w).toNat = w.toNat / 4096 := by
  have := w.isLt
  simp only [chanField, BitVec.extractLsb'_toNat, Nat.shiftRight_eq_div_pow]
  omega

theorem cmdField_toNat (w : BitVec 16) : (cmdField w).toNat = w.toNat / 256 % 16 := by
  simp only [cmdField, BitVec.extractLsb'_toNat, Nat.shiftRight_eq_div_pow]

theorem strengthField_toNat (w : BitVec 16) : (strengthField w).toNat = w.toNat % 256 := by
  simp only [strengthField, BitVec.extractLsb'_toNat, Nat.shiftRight_eq_div_pow, pow_zero,
    Nat.div_one]

theorem commandWord_toNat (c k : BitVec 4) (st : BitVec 8) :
    (commandWord c k st).toNat = c.toNat * 4096 + k.toNat * 256 + st.toNat := by
  have h1 := chanField_toNat (commandWord c k st)
  have h2 := cmdField_toNat (commandWord c k st)
  have h3 := strengthField_toNat (commandWord c k st)
  rw [chanField_commandWord] at h1
  rw [cmdField_commandWord] at h2
  rw [strengthField_commandWord] at h3
  omega

theorem legalChannel_iff (c : BitVec 4) : legalChannel c = true ↔ c.toNat ≤ 2 := by
  simp [legalChannel]

theorem legalChannel_false_iff (c : BitVec 4) : legalChannel c = false ↔ 2 < c.toNat := by
  simp [legalChannel]

theorem legalCommand_iff (c : BitVec 4) : legalCommand c = true ↔ 1 ≤ c.toNat ∧ c.toNat ≤ 3 := by
  revert c
  decide

theorem legalCommand_false_iff (c : BitVec 4) :
    legalCommand c = false ↔ c.toNat = 0 ∨ 4 ≤ c.toNat := by
  revert c
  decide

/-- A legal word has a legal channel and a legal command, and which instruction it is follows from the
command field (30_encoding.md R118). -/
theorem decodeCommand_legal {w : BitVec 16} {d : Duration} {i : Instr}
    (h : decodeCommand w d = .legal i) :
    legalChannel (chanField w) = true ∧
    ((cmdField w = 1#4 ∧ i = .shock (chanField w) (strengthField w) d) ∨
     (cmdField w = 2#4 ∧ i = .vibrate (chanField w) (strengthField w) d) ∨
     (cmdField w = 3#4 ∧ i = .beep (chanField w) d)) := by
  unfold decodeCommand at h
  split at h
  · rename_i hc
    refine ⟨hc, ?_⟩
    split at h
    · rename_i h1
      cases h
      exact .inl ⟨h1, rfl⟩
    · split at h
      · rename_i h2
        cases h
        exact .inr (.inl ⟨h2, rfl⟩)
      · split at h
        · rename_i h3
          cases h
          exact .inr (.inr ⟨h3, rfl⟩)
        · cases h
  · cases h

/-- An illegal word has an illegal channel, or a legal one and an illegal command (60_exceptions.md
R257). -/
theorem decodeCommand_illegal {w : BitVec 16} {d : Duration} {c : FaultCause}
    (h : decodeCommand w d = .illegal c) :
    (legalChannel (chanField w) = false ∧ c = .illegalChannel) ∨
    (legalChannel (chanField w) = true ∧ legalCommand (cmdField w) = false ∧
      c = .illegalCommand) := by
  unfold decodeCommand at h
  split at h
  · rename_i hc
    split at h
    · cases h
    · split at h
      · cases h
      · split at h
        · cases h
        · cases h
          refine .inr ⟨hc, ?_, rfl⟩
          simp_all [legalCommand]
  · cases h
    simp_all

/-- A word with legal fields decodes to an instruction. -/
theorem decodeCommand_of_legal {w : BitVec 16} (d : Duration)
    (hc : legalChannel (chanField w) = true) (hk : legalCommand (cmdField w) = true) :
    ∃ i, decodeCommand w d = .legal i := by
  cases h : decodeCommand w d with
  | legal i => exact ⟨i, rfl⟩
  | illegal c => rcases decodeCommand_illegal h with ⟨h', -⟩ | ⟨-, h', -⟩ <;> simp_all

theorem decodeCommand_of_illegalChannel {w : BitVec 16} (d : Duration)
    (hc : legalChannel (chanField w) = false) : decodeCommand w d = .illegal .illegalChannel := by
  simp [decodeCommand, hc]

theorem decodeCommand_of_illegalCommand {w : BitVec 16} (d : Duration)
    (hc : legalChannel (chanField w) = true) (hk : legalCommand (cmdField w) = false) :
    decodeCommand w d = .illegal .illegalCommand := by
  have : cmdField w ≠ 1#4 ∧ cmdField w ≠ 2#4 ∧ cmdField w ≠ 3#4 := by
    simpa [legalCommand, not_or, and_assoc] using hk
  rw [decodeCommand, if_pos hc, if_neg this.1, if_neg this.2.1, if_neg this.2.2]

end Sys2Proof
end

