-- ==== Sys2Proof/Laws/Memory.lean ====
section
/-! SUPPORT. The laws of the frame buffer: a read after a write, and the canonical form, which every
memory operation keeps. -/

namespace Sys2Proof.Machine

theorem lookup_insertCell_same (i : Nat) (v : Entry) (l : Cells) :
    (insertCell i v l).lookup i = some v := by
  induction l with
  | nil => simp [insertCell]
  | cons c rest ih =>
    obtain ⟨j, u⟩ := c
    simp only [insertCell]
    split
    · simp
    · split
      · simp
      · have hne : ¬ i = j := by assumption
        simp only [List.lookup_cons, beq_eq_false_iff_ne.mpr hne]
        exact ih

theorem lookup_insertCell_other {i k : Nat} (v : Entry) (l : Cells) (h : k ≠ i) :
    (insertCell i v l).lookup k = l.lookup k := by
  induction l with
  | nil => simp [insertCell, List.lookup_cons, beq_eq_false_iff_ne.mpr h]
  | cons c rest ih =>
    obtain ⟨j, u⟩ := c
    simp only [insertCell]
    split
    · simp [List.lookup_cons, beq_eq_false_iff_ne.mpr h]
    · split
      · rename_i _ hij
        subst hij
        simp [List.lookup_cons, beq_eq_false_iff_ne.mpr h]
      · simp only [List.lookup_cons, ih]

@[simp] theorem Memory.unspecified_draw (n : Nat) : (Memory.unspecified n).draw = n := rfl

@[simp] theorem Memory.unspecified_written (n : Nat) (i : EntryIndex) :
    (Memory.unspecified n).written i = none := rfl

@[simp] theorem Memory.write_draw (m : Memory) (i : EntryIndex) (v : Entry) :
    (m.write i v).draw = m.draw := rfl

/-- A written entry reads as what was written. -/
theorem Memory.read_of_written {m : Memory} {i : EntryIndex} {v : Entry}
    (h : m.written i = some v) : m.read i = v := by rw [Memory.read, h, Option.getD_some]

/-- An entry that nothing has written is a free value (93 U6, log 2). -/
theorem Memory.read_of_not_written {m : Memory} {i : EntryIndex} (h : m.written i = none) :
    m.read i = Config.freeEntry m.draw i := by rw [Memory.read, h, Option.getD_none]

/-- A read depends on whether and what was written there, and on the draw. -/
theorem Memory.read_congr {m n : Memory} {i : EntryIndex} (h : m.written i = n.written i)
    (hd : m.draw = n.draw) : m.read i = n.read i := by rw [Memory.read, Memory.read, h, hd]

@[simp] theorem Memory.written_write_same (m : Memory) (i : EntryIndex) (v : Entry) :
    (m.write i v).written i = some v :=
  lookup_insertCell_same _ _ _

/-- A write has no effect other than on its entry (20_memory.md R76). -/
theorem Memory.written_write_other (m : Memory) {i k : EntryIndex} (v : Entry) (h : k ≠ i) :
    (m.write i v).written k = m.written k :=
  lookup_insertCell_other _ _ (fun e => h (BitVec.eq_of_toNat_eq e))

/-- A read after a write to the same entry gives what was written. -/
@[simp] theorem Memory.read_write_same (m : Memory) (i : EntryIndex) (v : Entry) :
    (m.write i v).read i = v :=
  Memory.read_of_written (Memory.written_write_same m i v)

/-- A read of another entry gives what it gave before the write (20_memory.md R76). -/
theorem Memory.read_write_other (m : Memory) {i k : EntryIndex} (v : Entry) (h : k ≠ i) :
    (m.write i v).read k = m.read k :=
  Memory.read_congr (Memory.written_write_other m v h) rfl

theorem entryIndex_ofNat_toNat {k : Nat} (h : k < 128) : (BitVec.ofNat 7 k).toNat = k := by
  simp only [BitVec.toNat_ofNat]
  omega

@[simp] theorem Memory.writeFrom_draw (l : List Entry) (n : Nat) (m : Memory) :
    (m.writeFrom n l).draw = m.draw := by
  induction l generalizing n m with
  | nil => rfl
  | cons v rest ih => exact ih _ _

/-- Consecutive writes leave every entry below them alone. -/
theorem Memory.written_writeFrom_below (l : List Entry) (n : Nat) (m : Memory) (i : EntryIndex)
    (hfit : n + l.length ≤ 128) (hi : i.toNat < n) :
    (m.writeFrom n l).written i = m.written i := by
  induction l generalizing n m with
  | nil => rfl
  | cons v rest ih =>
    simp only [List.length_cons] at hfit
    have hne : i ≠ BitVec.ofNat 7 n := by
      intro e
      have := congrArg BitVec.toNat e
      rw [entryIndex_ofNat_toNat (by omega)] at this
      omega
    rw [Memory.writeFrom, ih (n + 1) _ (by omega) (by omega), Memory.written_write_other _ _ hne]

/-- Consecutive writes leave every entry above them alone. -/
theorem Memory.written_writeFrom_above (l : List Entry) (n : Nat) (m : Memory) (i : EntryIndex)
    (hfit : n + l.length ≤ 128) (hi : n + l.length ≤ i.toNat) :
    (m.writeFrom n l).written i = m.written i := by
  induction l generalizing n m with
  | nil => rfl
  | cons v rest ih =>
    simp only [List.length_cons] at hfit hi
    have hne : i ≠ BitVec.ofNat 7 n := by
      intro e
      have := congrArg BitVec.toNat e
      rw [entryIndex_ofNat_toNat (by omega)] at this
      omega
    rw [Memory.writeFrom, ih (n + 1) _ (by omega) (by omega), Memory.written_write_other _ _ hne]

/-- Consecutive writes leave each written entry in its place. -/
theorem Memory.written_writeFrom_at (l : List Entry) (n : Nat) (m : Memory) (k : Nat)
    (hfit : n + l.length ≤ 128) (hk : k < l.length) :
    (m.writeFrom n l).written (BitVec.ofNat 7 (n + k)) = l[k]? := by
  induction l generalizing n m k with
  | nil => simp at hk
  | cons v rest ih =>
    simp only [List.length_cons] at hfit hk
    rw [Memory.writeFrom]
    cases k with
    | zero =>
      rw [Memory.written_writeFrom_below _ _ _ _ (by omega)]
      · simp
      · rw [Nat.add_zero, entryIndex_ofNat_toNat (by omega)]
        omega
    | succ j =>
      have := ih (n + 1) (m.write (BitVec.ofNat 7 n) v) j (by omega) (by omega)
      rw [show n + (j + 1) = n + 1 + j by omega, this]
      simp

/-- Consecutive writes change no read above them. -/
theorem Memory.read_writeFrom_above (l : List Entry) (n : Nat) (m : Memory) (i : EntryIndex)
    (hfit : n + l.length ≤ 128) (hi : n + l.length ≤ i.toNat) :
    (m.writeFrom n l).read i = m.read i :=
  Memory.read_congr (Memory.written_writeFrom_above l n m i hfit hi) (Memory.writeFrom_draw l n m)

theorem risesFrom_insertCell (i : Nat) (v : Entry) (l : Cells) (b : Nat)
    (hm : risesFrom b l = true) (hi : i < Config.frameCap) (hb : b ≤ i) :
    risesFrom b (insertCell i v l) = true := by
  induction l generalizing b with
  | nil => simp [insertCell, risesFrom, hi, hb]
  | cons c rest ih =>
    obtain ⟨j, u⟩ := c
    simp only [risesFrom, Bool.and_eq_true, decide_eq_true_eq] at hm
    obtain ⟨⟨hbj, hj⟩, hrest⟩ := hm
    simp only [insertCell]
    split
    · rename_i hlt
      simp [risesFrom, hb, hi, hlt, hj, hrest]
    · split
      · rename_i heq
        subst heq
        simp [risesFrom, hb, hi, hrest]
      · simp only [risesFrom, Bool.and_eq_true, decide_eq_true_eq]
        exact ⟨⟨hbj, hj⟩, ih (j + 1) hrest (by omega)⟩

/-- A write keeps the canonical form. -/
theorem Memory.write_wf (m : Memory) (i : EntryIndex) (v : Entry) (h : m.wf = true) :
    (m.write i v).wf = true :=
  risesFrom_insertCell _ _ _ _ h i.isLt (Nat.zero_le _)

/-- Consecutive writes keep the canonical form. -/
theorem Memory.writeFrom_wf (l : List Entry) (n : Nat) (m : Memory) (h : m.wf = true) :
    (m.writeFrom n l).wf = true := by
  induction l generalizing n m with
  | nil => exact h
  | cons v rest ih => exact ih _ _ (Memory.write_wf _ _ _ h)

/-- The frame buffer after reset has the canonical form: nothing is listed. -/
theorem Memory.reset_wf : State.reset.frame.wf = true := rfl

end Sys2Proof.Machine
end

