-- ==== Sys2Proof/Laws/State.lean ====
section
/-! SUPPORT. One lemma per field and update of the state, so that no proof unfolds a record update. -/

namespace Sys2Proof.Machine

variable (s : State)

/-! Sets the pin only (00_scope.md R10). -/

@[simp] theorem pinSet_deviceId (l : Level) : (s.pinSet l).deviceId = s.deviceId := rfl
@[simp] theorem pinSet_chan (l : Level) : (s.pinSet l).chan = s.chan := rfl
@[simp] theorem pinSet_cmd (l : Level) : (s.pinSet l).cmd = s.cmd := rfl
@[simp] theorem pinSet_strength (l : Level) : (s.pinSet l).strength = s.strength := rfl
@[simp] theorem pinSet_chk (l : Level) : (s.pinSet l).chk = s.chk := rfl
@[simp] theorem pinSet_deadline (l : Level) : (s.pinSet l).deadline = s.deadline := rfl
@[simp] theorem pinSet_phase (l : Level) : (s.pinSet l).phase = s.phase := rfl
@[simp] theorem pinSet_idx (l : Level) : (s.pinSet l).idx = s.idx := rfl
@[simp] theorem pinSet_level (l : Level) : (s.pinSet l).level = s.level := rfl
@[simp] theorem pinSet_txOut (l : Level) : (s.pinSet l).txOut = l := rfl
@[simp] theorem pinSet_faultCause (l : Level) : (s.pinSet l).faultCause = s.faultCause := rfl
@[simp] theorem pinSet_frameLen (l : Level) : (s.pinSet l).frameLen = s.frameLen := rfl
@[simp] theorem pinSet_frame (l : Level) : (s.pinSet l).frame = s.frame := rfl
@[simp] theorem pinSet_time (l : Level) : (s.pinSet l).time = s.time := rfl
@[simp] theorem pinSet_inputs (l : Level) : (s.pinSet l).inputs = s.inputs := rfl
@[simp] theorem pinSet_host (l : Level) : (s.pinSet l).host = s.host := rfl
@[simp] theorem pinSet_trace (l : Level) : (s.pinSet l).trace = s.trace := rfl
@[simp] theorem pinSet_starts (l : Level) : (s.pinSet l).starts = s.starts := rfl
@[simp] theorem pinSet_frames (l : Level) : (s.pinSet l).frames = s.frames := rfl
@[simp] theorem pinSet_draws (l : Level) : (s.pinSet l).draws = s.draws := rfl

/-! Appends to the observation only. -/

@[simp] theorem emit_deviceId (l : Level) (t : Entry) : (s.emit l t).deviceId = s.deviceId := rfl
@[simp] theorem emit_chan (l : Level) (t : Entry) : (s.emit l t).chan = s.chan := rfl
@[simp] theorem emit_cmd (l : Level) (t : Entry) : (s.emit l t).cmd = s.cmd := rfl
@[simp] theorem emit_strength (l : Level) (t : Entry) : (s.emit l t).strength = s.strength := rfl
@[simp] theorem emit_chk (l : Level) (t : Entry) : (s.emit l t).chk = s.chk := rfl
@[simp] theorem emit_deadline (l : Level) (t : Entry) : (s.emit l t).deadline = s.deadline := rfl
@[simp] theorem emit_phase (l : Level) (t : Entry) : (s.emit l t).phase = s.phase := rfl
@[simp] theorem emit_idx (l : Level) (t : Entry) : (s.emit l t).idx = s.idx := rfl
@[simp] theorem emit_level (l : Level) (t : Entry) : (s.emit l t).level = s.level := rfl
@[simp] theorem emit_txOut (l : Level) (t : Entry) : (s.emit l t).txOut = s.txOut := rfl
@[simp] theorem emit_faultCause (l : Level) (t : Entry) :
    (s.emit l t).faultCause = s.faultCause := rfl
@[simp] theorem emit_frameLen (l : Level) (t : Entry) : (s.emit l t).frameLen = s.frameLen := rfl
@[simp] theorem emit_frame (l : Level) (t : Entry) : (s.emit l t).frame = s.frame := rfl
@[simp] theorem emit_time (l : Level) (t : Entry) : (s.emit l t).time = s.time := rfl
@[simp] theorem emit_inputs (l : Level) (t : Entry) : (s.emit l t).inputs = s.inputs := rfl
@[simp] theorem emit_host (l : Level) (t : Entry) : (s.emit l t).host = s.host := rfl
@[simp] theorem emit_trace (l : Level) (t : Entry) : (s.emit l t).trace = s.trace ++ [⟨l, t⟩] := rfl
@[simp] theorem emit_starts (l : Level) (t : Entry) :
    (s.emit l t).starts = s.starts ++ [s.time] := rfl
@[simp] theorem emit_frames (l : Level) (t : Entry) : (s.emit l t).frames = s.frames := rfl
@[simp] theorem emit_draws (l : Level) (t : Entry) : (s.emit l t).draws = s.draws := rfl

/-! Writes the cause and the phase only (60_exceptions.md R256). -/

@[simp] theorem takeFault_deviceId (c : FaultCause) : (s.takeFault c).deviceId = s.deviceId := rfl
@[simp] theorem takeFault_chan (c : FaultCause) : (s.takeFault c).chan = s.chan := rfl
@[simp] theorem takeFault_cmd (c : FaultCause) : (s.takeFault c).cmd = s.cmd := rfl
@[simp] theorem takeFault_strength (c : FaultCause) : (s.takeFault c).strength = s.strength := rfl
@[simp] theorem takeFault_chk (c : FaultCause) : (s.takeFault c).chk = s.chk := rfl
@[simp] theorem takeFault_deadline (c : FaultCause) : (s.takeFault c).deadline = s.deadline := rfl
@[simp] theorem takeFault_phase (c : FaultCause) : (s.takeFault c).phase = .fault := rfl
@[simp] theorem takeFault_idx (c : FaultCause) : (s.takeFault c).idx = s.idx := rfl
@[simp] theorem takeFault_level (c : FaultCause) : (s.takeFault c).level = s.level := rfl
@[simp] theorem takeFault_txOut (c : FaultCause) : (s.takeFault c).txOut = s.txOut := rfl
@[simp] theorem takeFault_faultCause (c : FaultCause) : (s.takeFault c).faultCause = c := rfl
@[simp] theorem takeFault_frameLen (c : FaultCause) : (s.takeFault c).frameLen = s.frameLen := rfl
@[simp] theorem takeFault_frame (c : FaultCause) : (s.takeFault c).frame = s.frame := rfl
@[simp] theorem takeFault_time (c : FaultCause) : (s.takeFault c).time = s.time := rfl
@[simp] theorem takeFault_inputs (c : FaultCause) : (s.takeFault c).inputs = s.inputs := rfl
@[simp] theorem takeFault_host (c : FaultCause) : (s.takeFault c).host = s.host := rfl
@[simp] theorem takeFault_trace (c : FaultCause) : (s.takeFault c).trace = s.trace := rfl
@[simp] theorem takeFault_starts (c : FaultCause) : (s.takeFault c).starts = s.starts := rfl
@[simp] theorem takeFault_frames (c : FaultCause) : (s.takeFault c).frames = s.frames := rfl
@[simp] theorem takeFault_draws (c : FaultCause) : (s.takeFault c).draws = s.draws := rfl

/-! The fixed values and the free ones (10_state.md R56). -/

@[simp] theorem resetStep_deviceId : s.resetStep.deviceId = unspecified 16 s.draws := rfl
@[simp] theorem resetStep_chan : s.resetStep.chan = unspecified 4 (s.draws + 1) := rfl
@[simp] theorem resetStep_cmd : s.resetStep.cmd = unspecified 4 (s.draws + 2) := rfl
@[simp] theorem resetStep_strength : s.resetStep.strength = unspecified 8 (s.draws + 3) := rfl
@[simp] theorem resetStep_chk : s.resetStep.chk = unspecified 8 (s.draws + 4) := rfl
@[simp] theorem resetStep_deadline : s.resetStep.deadline = unspecified 64 (s.draws + 5) := rfl
@[simp] theorem resetStep_phase : s.resetStep.phase = .unconfigured := rfl
@[simp] theorem resetStep_idx : s.resetStep.idx = 0#7 := rfl
@[simp] theorem resetStep_level : s.resetStep.level = low := rfl
@[simp] theorem resetStep_txOut : s.resetStep.txOut = low := rfl
@[simp] theorem resetStep_faultCause : s.resetStep.faultCause = .none := rfl
@[simp] theorem resetStep_frameLen : s.resetStep.frameLen = 0#8 := rfl
@[simp] theorem resetStep_frame : s.resetStep.frame = .unspecified (s.draws + 6) := rfl
@[simp] theorem resetStep_time : s.resetStep.time = s.time := rfl
@[simp] theorem resetStep_inputs : s.resetStep.inputs = s.inputs := rfl
@[simp] theorem resetStep_host : s.resetStep.host = s.host := rfl
@[simp] theorem resetStep_trace : s.resetStep.trace = s.trace := rfl
@[simp] theorem resetStep_starts : s.resetStep.starts = s.starts := rfl
@[simp] theorem resetStep_frames : s.resetStep.frames = s.frames := rfl
@[simp] theorem resetStep_draws : s.resetStep.draws = s.draws + 7 := rfl

/-! Writes the three operand latches (42_transmitter_session.md R194). -/

@[simp] theorem latch_deviceId (w : BitVec 16) : (s.latch w).deviceId = s.deviceId := rfl
@[simp] theorem latch_chan (w : BitVec 16) : (s.latch w).chan = chanField w := rfl
@[simp] theorem latch_cmd (w : BitVec 16) : (s.latch w).cmd = cmdField w := rfl
@[simp] theorem latch_strength (w : BitVec 16) : (s.latch w).strength = effectiveStrength w := rfl
@[simp] theorem latch_chk (w : BitVec 16) : (s.latch w).chk = s.chk := rfl
@[simp] theorem latch_deadline (w : BitVec 16) : (s.latch w).deadline = s.deadline := rfl
@[simp] theorem latch_phase (w : BitVec 16) : (s.latch w).phase = s.phase := rfl
@[simp] theorem latch_idx (w : BitVec 16) : (s.latch w).idx = s.idx := rfl
@[simp] theorem latch_level (w : BitVec 16) : (s.latch w).level = s.level := rfl
@[simp] theorem latch_txOut (w : BitVec 16) : (s.latch w).txOut = s.txOut := rfl
@[simp] theorem latch_faultCause (w : BitVec 16) : (s.latch w).faultCause = s.faultCause := rfl
@[simp] theorem latch_frameLen (w : BitVec 16) : (s.latch w).frameLen = s.frameLen := rfl
@[simp] theorem latch_frame (w : BitVec 16) : (s.latch w).frame = s.frame := rfl
@[simp] theorem latch_time (w : BitVec 16) : (s.latch w).time = s.time := rfl
@[simp] theorem latch_inputs (w : BitVec 16) : (s.latch w).inputs = s.inputs := rfl
@[simp] theorem latch_host (w : BitVec 16) : (s.latch w).host = s.host := rfl
@[simp] theorem latch_trace (w : BitVec 16) : (s.latch w).trace = s.trace := rfl
@[simp] theorem latch_starts (w : BitVec 16) : (s.latch w).starts = s.starts := rfl
@[simp] theorem latch_frames (w : BitVec 16) : (s.latch w).frames = s.frames := rfl
@[simp] theorem latch_draws (w : BitVec 16) : (s.latch w).draws = s.draws := rfl

/-! Writes the checksum, the frame and its length (40_frame_encoder.md R147). -/

@[simp] theorem encode_deviceId : s.encode.deviceId = s.deviceId := rfl
@[simp] theorem encode_chan : s.encode.chan = s.chan := rfl
@[simp] theorem encode_cmd : s.encode.cmd = s.cmd := rfl
@[simp] theorem encode_strength : s.encode.strength = s.strength := rfl
@[simp] theorem encode_chk : s.encode.chk = checksum s.deviceId s.chan s.cmd s.strength := rfl
@[simp] theorem encode_deadline : s.encode.deadline = s.deadline := rfl
@[simp] theorem encode_phase : s.encode.phase = s.phase := rfl
@[simp] theorem encode_idx : s.encode.idx = s.idx := rfl
@[simp] theorem encode_level : s.encode.level = s.level := rfl
@[simp] theorem encode_txOut : s.encode.txOut = s.txOut := rfl
@[simp] theorem encode_faultCause : s.encode.faultCause = s.faultCause := rfl
@[simp] theorem encode_frame :
    s.encode.frame = s.frame.writeFrom 0 (encodeFrame s.deviceId s.chan s.cmd s.strength) := by
  unfold State.encode; with_reducible rfl
@[simp] theorem encode_time : s.encode.time = s.time := rfl
@[simp] theorem encode_inputs : s.encode.inputs = s.inputs := rfl
@[simp] theorem encode_host : s.encode.host = s.host := rfl
@[simp] theorem encode_trace : s.encode.trace = s.trace := rfl
@[simp] theorem encode_starts : s.encode.starts = s.starts := rfl
@[simp] theorem encode_frames : s.encode.frames = s.frames := rfl
@[simp] theorem encode_draws : s.encode.draws = s.draws := rfl

/-! Forces the pin low (41_pulse_driver.md R175). -/

@[simp] theorem frameEndStep_deviceId : (frameEndStep s).deviceId = s.deviceId := rfl
@[simp] theorem frameEndStep_chan : (frameEndStep s).chan = s.chan := rfl
@[simp] theorem frameEndStep_cmd : (frameEndStep s).cmd = s.cmd := rfl
@[simp] theorem frameEndStep_strength : (frameEndStep s).strength = s.strength := rfl
@[simp] theorem frameEndStep_chk : (frameEndStep s).chk = s.chk := rfl
@[simp] theorem frameEndStep_deadline : (frameEndStep s).deadline = s.deadline := rfl
@[simp] theorem frameEndStep_phase : (frameEndStep s).phase = .check := rfl
@[simp] theorem frameEndStep_idx : (frameEndStep s).idx = s.idx := rfl
@[simp] theorem frameEndStep_level : (frameEndStep s).level = s.level := rfl
@[simp] theorem frameEndStep_txOut : (frameEndStep s).txOut = low := rfl
@[simp] theorem frameEndStep_faultCause : (frameEndStep s).faultCause = s.faultCause := rfl
@[simp] theorem frameEndStep_frameLen : (frameEndStep s).frameLen = s.frameLen := rfl
@[simp] theorem frameEndStep_frame : (frameEndStep s).frame = s.frame := rfl
@[simp] theorem frameEndStep_time : (frameEndStep s).time = s.time := rfl
@[simp] theorem frameEndStep_inputs : (frameEndStep s).inputs = s.inputs := rfl
@[simp] theorem frameEndStep_host : (frameEndStep s).host = s.host := rfl
@[simp] theorem frameEndStep_trace : (frameEndStep s).trace = s.trace := rfl
@[simp] theorem frameEndStep_starts : (frameEndStep s).starts = s.starts := rfl
@[simp] theorem frameEndStep_frames : (frameEndStep s).frames = s.frames + 1 := rfl
@[simp] theorem frameEndStep_draws : (frameEndStep s).draws = s.draws := rfl

/-! Changes the ports (log 8) and, when `rst` falls, the observations (log 12). -/

@[simp] theorem drivePorts_deviceId (p : Inputs) (rest : List HostEvent) :
    (s.drivePorts p rest).deviceId = s.deviceId := rfl
@[simp] theorem drivePorts_chan (p : Inputs) (rest : List HostEvent) :
    (s.drivePorts p rest).chan = s.chan := rfl
@[simp] theorem drivePorts_cmd (p : Inputs) (rest : List HostEvent) :
    (s.drivePorts p rest).cmd = s.cmd := rfl
@[simp] theorem drivePorts_strength (p : Inputs) (rest : List HostEvent) :
    (s.drivePorts p rest).strength = s.strength := rfl
@[simp] theorem drivePorts_chk (p : Inputs) (rest : List HostEvent) :
    (s.drivePorts p rest).chk = s.chk := rfl
@[simp] theorem drivePorts_deadline (p : Inputs) (rest : List HostEvent) :
    (s.drivePorts p rest).deadline = s.deadline := rfl
@[simp] theorem drivePorts_phase (p : Inputs) (rest : List HostEvent) :
    (s.drivePorts p rest).phase = s.phase := rfl
@[simp] theorem drivePorts_idx (p : Inputs) (rest : List HostEvent) :
    (s.drivePorts p rest).idx = s.idx := rfl
@[simp] theorem drivePorts_level (p : Inputs) (rest : List HostEvent) :
    (s.drivePorts p rest).level = s.level := rfl
@[simp] theorem drivePorts_txOut (p : Inputs) (rest : List HostEvent) :
    (s.drivePorts p rest).txOut = s.txOut := rfl
@[simp] theorem drivePorts_faultCause (p : Inputs) (rest : List HostEvent) :
    (s.drivePorts p rest).faultCause = s.faultCause := rfl
@[simp] theorem drivePorts_frameLen (p : Inputs) (rest : List HostEvent) :
    (s.drivePorts p rest).frameLen = s.frameLen := rfl
@[simp] theorem drivePorts_frame (p : Inputs) (rest : List HostEvent) :
    (s.drivePorts p rest).frame = s.frame := rfl
@[simp] theorem drivePorts_time (p : Inputs) (rest : List HostEvent) :
    (s.drivePorts p rest).time = s.time := rfl
@[simp] theorem drivePorts_inputs (p : Inputs) (rest : List HostEvent) :
    (s.drivePorts p rest).inputs = p := rfl
@[simp] theorem drivePorts_host (p : Inputs) (rest : List HostEvent) :
    (s.drivePorts p rest).host = rest := rfl
@[simp] theorem drivePorts_trace (p : Inputs) (rest : List HostEvent) :
    (s.drivePorts p rest).trace = if s.inputs.rst && !p.rst then [] else s.trace := rfl
@[simp] theorem drivePorts_starts (p : Inputs) (rest : List HostEvent) :
    (s.drivePorts p rest).starts = if s.inputs.rst && !p.rst then [] else s.starts := rfl
@[simp] theorem drivePorts_frames (p : Inputs) (rest : List HostEvent) :
    (s.drivePorts p rest).frames = if s.inputs.rst && !p.rst then 0 else s.frames := rfl
@[simp] theorem drivePorts_draws (p : Inputs) (rest : List HostEvent) :
    (s.drivePorts p rest).draws = s.draws := rfl

/-! Lets time pass only (42_transmitter_session.md R209). -/

@[simp] theorem waitFreely_deviceId : s.waitFreely.deviceId = s.deviceId := rfl
@[simp] theorem waitFreely_chan : s.waitFreely.chan = s.chan := rfl
@[simp] theorem waitFreely_cmd : s.waitFreely.cmd = s.cmd := rfl
@[simp] theorem waitFreely_strength : s.waitFreely.strength = s.strength := rfl
@[simp] theorem waitFreely_chk : s.waitFreely.chk = s.chk := rfl
@[simp] theorem waitFreely_deadline : s.waitFreely.deadline = s.deadline := rfl
@[simp] theorem waitFreely_phase : s.waitFreely.phase = s.phase := rfl
@[simp] theorem waitFreely_idx : s.waitFreely.idx = s.idx := rfl
@[simp] theorem waitFreely_level : s.waitFreely.level = s.level := rfl
@[simp] theorem waitFreely_txOut : s.waitFreely.txOut = s.txOut := rfl
@[simp] theorem waitFreely_faultCause : s.waitFreely.faultCause = s.faultCause := rfl
@[simp] theorem waitFreely_frameLen : s.waitFreely.frameLen = s.frameLen := rfl
@[simp] theorem waitFreely_frame : s.waitFreely.frame = s.frame := rfl
@[simp] theorem waitFreely_inputs : s.waitFreely.inputs = s.inputs := rfl
@[simp] theorem waitFreely_host : s.waitFreely.host = s.host := rfl
@[simp] theorem waitFreely_trace : s.waitFreely.trace = s.trace := rfl
@[simp] theorem waitFreely_starts : s.waitFreely.starts = s.starts := rfl
@[simp] theorem waitFreely_frames : s.waitFreely.frames = s.frames := rfl
@[simp] theorem waitFreely_draws : s.waitFreely.draws = s.draws + 1 := rfl

/-! Lowers one `valid` only (log 9). -/

@[simp] theorem lower_deviceId (o : Offer) : (s.lower o).deviceId = s.deviceId := by cases o <;> rfl
@[simp] theorem lower_chan (o : Offer) : (s.lower o).chan = s.chan := by cases o <;> rfl
@[simp] theorem lower_cmd (o : Offer) : (s.lower o).cmd = s.cmd := by cases o <;> rfl
@[simp] theorem lower_strength (o : Offer) : (s.lower o).strength = s.strength := by cases o <;> rfl
@[simp] theorem lower_chk (o : Offer) : (s.lower o).chk = s.chk := by cases o <;> rfl
@[simp] theorem lower_deadline (o : Offer) : (s.lower o).deadline = s.deadline := by cases o <;> rfl
@[simp] theorem lower_phase (o : Offer) : (s.lower o).phase = s.phase := by cases o <;> rfl
@[simp] theorem lower_idx (o : Offer) : (s.lower o).idx = s.idx := by cases o <;> rfl
@[simp] theorem lower_level (o : Offer) : (s.lower o).level = s.level := by cases o <;> rfl
@[simp] theorem lower_txOut (o : Offer) : (s.lower o).txOut = s.txOut := by cases o <;> rfl
@[simp] theorem lower_faultCause (o : Offer) :
    (s.lower o).faultCause = s.faultCause := by cases o <;> rfl
@[simp] theorem lower_frameLen (o : Offer) : (s.lower o).frameLen = s.frameLen := by cases o <;> rfl
@[simp] theorem lower_frame (o : Offer) : (s.lower o).frame = s.frame := by cases o <;> rfl
@[simp] theorem lower_time (o : Offer) : (s.lower o).time = s.time := by cases o <;> rfl
@[simp] theorem lower_host (o : Offer) : (s.lower o).host = s.host := by cases o <;> rfl
@[simp] theorem lower_trace (o : Offer) : (s.lower o).trace = s.trace := by cases o <;> rfl
@[simp] theorem lower_starts (o : Offer) : (s.lower o).starts = s.starts := by cases o <;> rfl
@[simp] theorem lower_frames (o : Offer) : (s.lower o).frames = s.frames := by cases o <;> rfl
@[simp] theorem lower_draws (o : Offer) : (s.lower o).draws = s.draws := by cases o <;> rfl

/-! Sets the ports, the phase and the host only (log 18). -/

@[simp] theorem present_deviceId (o : Offer) :
    (s.present o).deviceId = s.deviceId := by cases o <;> rfl
@[simp] theorem present_chan (o : Offer) : (s.present o).chan = s.chan := by cases o <;> rfl
@[simp] theorem present_cmd (o : Offer) : (s.present o).cmd = s.cmd := by cases o <;> rfl
@[simp] theorem present_strength (o : Offer) :
    (s.present o).strength = s.strength := by cases o <;> rfl
@[simp] theorem present_chk (o : Offer) : (s.present o).chk = s.chk := by cases o <;> rfl
@[simp] theorem present_deadline (o : Offer) :
    (s.present o).deadline = s.deadline := by cases o <;> rfl
@[simp] theorem present_idx (o : Offer) : (s.present o).idx = s.idx := by cases o <;> rfl
@[simp] theorem present_level (o : Offer) : (s.present o).level = s.level := by cases o <;> rfl
@[simp] theorem present_txOut (o : Offer) : (s.present o).txOut = s.txOut := by cases o <;> rfl
@[simp] theorem present_faultCause (o : Offer) :
    (s.present o).faultCause = s.faultCause := by cases o <;> rfl
@[simp] theorem present_frameLen (o : Offer) :
    (s.present o).frameLen = s.frameLen := by cases o <;> rfl
@[simp] theorem present_frame (o : Offer) : (s.present o).frame = s.frame := by cases o <;> rfl
@[simp] theorem present_time (o : Offer) : (s.present o).time = s.time := by cases o <;> rfl
@[simp] theorem present_host (o : Offer) : (s.present o).host = [] := by cases o <;> rfl
@[simp] theorem present_trace (o : Offer) : (s.present o).trace = s.trace := by cases o <;> rfl
@[simp] theorem present_starts (o : Offer) : (s.present o).starts = s.starts := by cases o <;> rfl
@[simp] theorem present_frames (o : Offer) : (s.present o).frames = s.frames := by cases o <;> rfl
@[simp] theorem present_draws (o : Offer) : (s.present o).draws = s.draws := by cases o <;> rfl

/-! The whole of an acceptance (42_transmitter_session.md R194). -/

variable (tm : Config.Timing) (w : BitVec 16) (d : Duration)

@[simp] theorem launch_deviceId : (s.launch tm w d).deviceId = s.deviceId := rfl
@[simp] theorem launch_chan : (s.launch tm w d).chan = chanField w := rfl
@[simp] theorem launch_cmd : (s.launch tm w d).cmd = cmdField w := rfl
@[simp] theorem launch_strength : (s.launch tm w d).strength = effectiveStrength w := rfl
@[simp] theorem launch_chk :
    (s.launch tm w d).chk = checksum s.deviceId (chanField w) (cmdField w) (effectiveStrength w) := rfl
@[simp] theorem launch_deadline :
    (s.launch tm w d).deadline = deadlineFrom (s.time + BitVec.ofNat 64 tm.tEnc) d := rfl
@[simp] theorem launch_phase : (s.launch tm w d).phase = .check := rfl
@[simp] theorem launch_idx : (s.launch tm w d).idx = s.idx := rfl
@[simp] theorem launch_level : (s.launch tm w d).level = s.level := rfl
@[simp] theorem launch_txOut : (s.launch tm w d).txOut = s.txOut := rfl
@[simp] theorem launch_faultCause : (s.launch tm w d).faultCause = s.faultCause := rfl
@[simp] theorem launch_frame :
    (s.launch tm w d).frame = s.frame.writeFrom 0
      (encodeFrame s.deviceId (chanField w) (cmdField w) (effectiveStrength w)) := by
  unfold State.launch; simp only [encode_frame, latch_frame, latch_deviceId, latch_chan, latch_cmd,
    latch_strength]
@[simp] theorem launch_time : (s.launch tm w d).time = s.time + BitVec.ofNat 64 tm.tEnc := rfl
@[simp] theorem launch_inputs : (s.launch tm w d).inputs = s.inputs := rfl
@[simp] theorem launch_host : (s.launch tm w d).host = s.host := rfl
@[simp] theorem launch_trace : (s.launch tm w d).trace = s.trace := rfl
@[simp] theorem launch_starts : (s.launch tm w d).starts = s.starts := rfl
@[simp] theorem launch_frames : (s.launch tm w d).frames = 0 := rfl
@[simp] theorem launch_draws : (s.launch tm w d).draws = s.draws := rfl

/-- Time grows by the ticks asked for, if they fit, and nothing else changes. -/
theorem advance_eq_some {s t : State} {n : Nat} :
    s.advance n = some t ↔
      s.time.toNat + n < 2 ^ 64 ∧ t = { s with time := s.time + BitVec.ofNat 64 n } := by
  unfold State.advance
  split <;> simp_all [eq_comm]

/-- Time is refused exactly when the ticks asked for do not fit. -/
theorem advance_eq_none {s : State} {n : Nat} :
    s.advance n = none ↔ 2 ^ 64 ≤ s.time.toNat + n := by
  unfold State.advance
  split <;> simp_all

/-- The counter's value after ticks that fit. -/
theorem time_add_toNat {t : Ticks} {n : Nat} (h : t.toNat + n < 2 ^ 64) :
    (t + BitVec.ofNat 64 n).toNat = t.toNat + n := by
  simp only [BitVec.toNat_add, BitVec.toNat_ofNat]
  omega

end Sys2Proof.Machine
end

