-- ==== Sys2Proof/Laws/Frame.lean ====
section
/-! SUPPORT. The laws of the encoder: how long a frame is, which entry stands where, and what ENCODE
leaves in the buffer. -/

namespace Sys2Proof.Machine

@[simp] theorem symbol_length (b : Bool) : (symbol b).length = 2 := rfl

theorem symbol_true : symbol true = [804#16, 212#16] := by decide

theorem symbol_false : symbol false = [292#16, 724#16] := by decide

theorem highLen_eq (b : Bool) : highLen b = if b then 804#16 else 292#16 := by cases b <;> rfl

theorem lowLen_eq (b : Bool) : Config.pulseLen - highLen b = if b then 212#16 else 724#16 := by
  cases b <;> decide

theorem preamble_eq : preamble = [840#16, 1440#16, 724#16] := by decide

theorem trailer_eq : trailer = [292#16, 1476#16] := by decide

/-- The bit part of a frame, its first `n` bits. -/
def bitEntries (p : BitVec 42) (n : Nat) : List Entry :=
  (List.range n).flatMap (fun k => symbol (wireBit p k))

theorem frameOf_eq (p : BitVec 42) :
    frameOf p = [840#16, 1440#16, 724#16] ++ bitEntries p 42 ++ [292#16, 1476#16] := by
  rw [← preamble_eq, ← trailer_eq]
  rfl

theorem bitEntries_succ (p : BitVec 42) (n : Nat) :
    bitEntries p (n + 1) = bitEntries p n ++ symbol (wireBit p n) := by
  simp [bitEntries, List.range_succ]

@[simp] theorem bitEntries_length (p : BitVec 42) (n : Nat) : (bitEntries p n).length = 2 * n := by
  induction n with
  | zero => rfl
  | succ n ih => rw [bitEntries_succ, List.length_append, ih, symbol_length]; omega

/-- The entries of bit `k` are the pair at `2k`. -/
theorem bitEntries_getElem? (p : BitVec 42) (n k j : Nat) (hk : k < n) (hj : j < 2) :
    (bitEntries p n)[2 * k + j]? = (symbol (wireBit p k))[j]? := by
  induction n with
  | zero => omega
  | succ n ih =>
    rw [bitEntries_succ]
    by_cases h : k < n
    · rw [List.getElem?_append_left (by rw [bitEntries_length]; omega), ih h]
    · have hkn : k = n := by omega
      subst hkn
      rw [List.getElem?_append_right (by rw [bitEntries_length]; omega), bitEntries_length,
        Nat.add_sub_cancel_left]

@[simp] theorem frameOf_length (p : BitVec 42) : (frameOf p).length = 89 := by
  simp [frameOf_eq]

@[simp] theorem encodeFrame_length (id : BitVec 16) (chan cmd : BitVec 4) (str : BitVec 8) :
    (encodeFrame id chan cmd str).length = 89 := frameOf_length _

/-- The pair of bit `k` stands at the indices `3 + 2k` and `4 + 2k` (20_memory.md R71). -/
theorem frameOf_getElem?_bit (p : BitVec 42) (k j : Nat) (hk : k < 42) (hj : j < 2) :
    (frameOf p)[3 + 2 * k + j]? = (symbol (wireBit p k))[j]? := by
  rw [frameOf_eq, List.getElem?_append_left (by simp; omega),
    List.getElem?_append_right (by simp; omega)]
  simp only [List.length_cons, List.length_nil]
  rw [show 3 + 2 * k + j - (0 + 1 + 1 + 1) = 2 * k + j by omega, bitEntries_getElem? p 42 k j hk hj]

theorem frameOf_getElem?_preamble (p : BitVec 42) (i : Nat) (h : i < 3) :
    (frameOf p)[i]? = [840#16, 1440#16, 724#16][i]? := by
  rw [frameOf_eq, List.append_assoc, List.getElem?_append_left (by simpa using h)]

theorem frameOf_getElem?_trailer (p : BitVec 42) (i : Nat) (h : i < 2) :
    (frameOf p)[87 + i]? = [292#16, 1476#16][i]? := by
  rw [frameOf_eq, List.getElem?_append_right (by simp)]
  simp only [List.length_append, List.length_cons, List.length_nil, bitEntries_length]
  rw [show 87 + i - (0 + 1 + 1 + 1 + 2 * 42) = i by omega]

/-- Every entry of a frame is of the preamble, the trailer or a bit. -/
theorem mem_frameOf {p : BitVec 42} {t : Entry} (h : t ∈ frameOf p) :
    t ∈ [840#16, 1440#16, 724#16, 292#16, 1476#16, 804#16, 212#16] := by
  rw [frameOf_eq, List.mem_append, List.mem_append, bitEntries, List.mem_flatMap] at h
  rcases h with (h | ⟨k, -, h⟩) | h
  · simp only [List.mem_cons, List.not_mem_nil, or_false] at h ⊢
    tauto
  · cases hb : wireBit p k
    · rw [hb, symbol_false] at h
      simp only [List.mem_cons, List.not_mem_nil, or_false] at h ⊢
      tauto
    · rw [hb, symbol_true] at h
      simp only [List.mem_cons, List.not_mem_nil, or_false] at h ⊢
      tauto
  · simp only [List.mem_cons, List.not_mem_nil, or_false] at h ⊢
    tauto

variable (s : State)

/-- ENCODE writes the length 89 (10_state.md R44). -/
@[simp] theorem encode_frameLen : s.encode.frameLen = 89#8 := by
  unfold State.encode
  simp only [encodeFrame_length]

@[simp] theorem launch_frameLen (tm : Config.Timing) (w : BitVec 16) (d : Duration) :
    (s.launch tm w d).frameLen = 89#8 := encode_frameLen (s.latch w)

/-- ENCODE writes the checksum, the buffer and the length, nothing else (40_frame_encoder.md R140). -/
theorem encode_eq :
    s.encode = { s with
      chk := checksum s.deviceId s.chan s.cmd s.strength
      frame := s.frame.writeFrom 0 (encodeFrame s.deviceId s.chan s.cmd s.strength)
      frameLen := 89#8 } := by
  apply State.ext <;> simp

/-- The buffer after the writes of one frame holds the frame from index 0 on. -/
theorem written_writeFrame (m : Memory) (id : BitVec 16) (chan cmd : BitVec 4) (str : BitVec 8)
    (k : Nat) (hk : k < 89) :
    (m.writeFrom 0 (encodeFrame id chan cmd str)).written (BitVec.ofNat 7 k) =
      (encodeFrame id chan cmd str)[k]? := by
  have h := Memory.written_writeFrom_at (encodeFrame id chan cmd str) 0 m k (by simp)
    (by simpa using hk)
  rwa [Nat.zero_add] at h

theorem read_writeFrame (m : Memory) (id : BitVec 16) (chan cmd : BitVec 4) (str : BitVec 8)
    (k : Nat) (hk : k < 89) :
    (encodeFrame id chan cmd str)[k]? =
      some ((m.writeFrom 0 (encodeFrame id chan cmd str)).read (BitVec.ofNat 7 k)) := by
  have h := written_writeFrame m id chan cmd str k hk
  rw [List.getElem?_eq_getElem (by simpa using hk)] at h ⊢
  rw [Memory.read_of_written h]

/-- The writes of one frame leave the entries from 89 on alone (20_memory.md R77). -/
theorem read_writeFrame_above (m : Memory) (id : BitVec 16) (chan cmd : BitVec 4) (str : BitVec 8)
    (i : EntryIndex) (hi : 89 ≤ i.toNat) :
    (m.writeFrom 0 (encodeFrame id chan cmd str)).read i = m.read i :=
  Memory.read_writeFrom_above _ 0 m i (by simp) (by simpa using hi)

/-- An index below 89, as the number of an entry of a frame. -/
theorem entryIndex_eq_ofNat (i : EntryIndex) : i = BitVec.ofNat 7 i.toNat := by simp

end Sys2Proof.Machine
end

