-- ==== Sys2Proof/Laws/Observation.lean ====
section
/-! SUPPORT. The laws of traces: what an append does to each measure of a trace, and the level at which an
entry list ends. -/

namespace Sys2Proof.Machine

@[simp] theorem traceTicks_append (a b : List Segment) :
    traceTicks (a ++ b) = traceTicks a + traceTicks b := by
  induction a with
  | nil => simp [traceTicks]
  | cons g rest ih => simp [traceTicks, ih, Nat.add_assoc]

@[simp] theorem highTicks_append (a b : List Segment) :
    highTicks (a ++ b) = highTicks a + highTicks b := by
  induction a with
  | nil => simp [highTicks]
  | cons g rest ih => simp [highTicks, ih, Nat.add_assoc]

/-- The waveform of two traces in a row: the first while it lasts, then the second. -/
theorem levelAt_append (a b : List Segment) (x : Nat) :
    levelAt (a ++ b) x = if x < traceTicks a then levelAt a x else levelAt b (x - traceTicks a) := by
  induction a generalizing x with
  | nil => simp [traceTicks]
  | cons g rest ih =>
    have hsum : traceTicks (g :: rest) = g.ticks.toNat + traceTicks rest := rfl
    rw [List.cons_append, levelAt, levelAt]
    by_cases h : x < g.ticks.toNat
    · rw [if_pos h, if_pos h, if_pos (by omega)]
    · rw [if_neg h, if_neg h, ih]
      by_cases h2 : x - g.ticks.toNat < traceTicks rest
      · rw [if_pos h2, if_pos (by omega)]
      · rw [if_neg h2, if_neg (by omega), hsum, Nat.sub_add_eq]

/-! ### The waveform -/

/-- Splitting a segment into two of equal level leaves the waveform as it is (10_state.md R52). -/
theorem levelAt_split (l : Level) (a b c : Entry) (rest : List Segment) (x : Nat)
    (h : c.toNat = a.toNat + b.toNat) :
    levelAt (⟨l, a⟩ :: ⟨l, b⟩ :: rest) x = levelAt (⟨l, c⟩ :: rest) x := by
  simp only [levelAt, h]
  by_cases h1 : x < a.toNat
  · rw [if_pos h1, if_pos (by omega)]
  · by_cases h2 : x < a.toNat + b.toNat
    · rw [if_neg h1, if_pos (by omega), if_pos h2]
    · rw [if_neg h1, if_neg (by omega), if_neg h2, Nat.sub_add_eq]

theorem lastsAt_iff {x : Nat} {p : Ticks × Segment} :
    lastsAt x p = true ↔ p.1.toNat ≤ x ∧ x < p.1.toNat + p.2.ticks.toNat := by
  simp [lastsAt]

@[simp] theorem waveform_nil (x : Nat) : waveform [] x = low := rfl

theorem waveform_cons (p : Ticks × Segment) (l : List (Ticks × Segment)) (x : Nat) :
    waveform (p :: l) x = if lastsAt x p then p.2.level else waveform l x := by
  unfold waveform
  rw [List.find?_cons]
  cases lastsAt x p <;> rfl

/-- Where no segment of the first list lasts, the waveform is that of the second. -/
theorem waveform_append_right {a : List (Ticks × Segment)} (b : List (Ticks × Segment)) {x : Nat}
    (h : ∀ p ∈ a, lastsAt x p = false) : waveform (a ++ b) x = waveform b x := by
  have ha : a.find? (lastsAt x) = none := List.find?_eq_none.mpr (fun p hp => by simp [h p hp])
  rw [waveform, List.find?_append, ha, Option.none_or, waveform]

/-- Where no segment of the second list lasts, the waveform is that of the first. -/
theorem waveform_append_left (a : List (Ticks × Segment)) {b : List (Ticks × Segment)} {x : Nat}
    (h : ∀ p ∈ b, lastsAt x p = false) : waveform (a ++ b) x = waveform a x := by
  have hb : b.find? (lastsAt x) = none := List.find?_eq_none.mpr (fun p hp => by simp [h p hp])
  rw [waveform, List.find?_append, hb, Option.or_none, waveform]

/-- A waveform is low where no segment lasts. -/
theorem waveform_of_none {l : List (Ticks × Segment)} {x : Nat}
    (h : ∀ p ∈ l, lastsAt x p = false) : waveform l x = low := by
  have := waveform_append_left [] h
  rwa [List.nil_append] at this

/-- The times at which the segments of a trace begin that plays without a break from time `t` on. -/
def startsFrom (t : Ticks) : List Segment → List Ticks
  | [] => []
  | g :: rest => t :: startsFrom (t + g.ticks.setWidth 64) rest

@[simp] theorem startsFrom_length (t : Ticks) (tr : List Segment) :
    (startsFrom t tr).length = tr.length := by
  induction tr generalizing t with
  | nil => rfl
  | cons g rest ih => simp [startsFrom, ih]

theorem startsFrom_append (t : Ticks) (a b : List Segment) :
    startsFrom t (a ++ b) = startsFrom t a ++ startsFrom (t + BitVec.ofNat 64 (traceTicks a)) b := by
  induction a generalizing t with
  | nil => simp [startsFrom, traceTicks]
  | cons g rest ih =>
    rw [List.cons_append, startsFrom, startsFrom, ih, List.cons_append]
    congr 3
    simp [traceTicks, BitVec.ofNat_add, BitVec.add_assoc]

/-- The waveform of a trace that plays without a break is `waveformFrom` its first time (10_state.md
R52). -/
theorem waveform_startsFrom (t : Ticks) (tr : List Segment) (x : Nat)
    (h : t.toNat + traceTicks tr < 2 ^ 64) :
    waveform ((startsFrom t tr).zip tr) x = waveformFrom t.toNat tr x := by
  induction tr generalizing t with
  | nil =>
    unfold waveformFrom
    split <;> rfl
  | cons g rest ih =>
    have hg := g.ticks.isLt
    rw [traceTicks] at h
    have ht : (t + g.ticks.setWidth 64).toNat = t.toNat + g.ticks.toNat := by
      rw [BitVec.toNat_add, BitVec.toNat_setWidth]
      omega
    rw [startsFrom, List.zip_cons_cons, waveform_cons, ih _ (by omega)]
    have hl : lastsAt x (t, g) = true ↔ t.toNat ≤ x ∧ x < t.toNat + g.ticks.toNat := lastsAt_iff
    unfold waveformFrom
    rw [levelAt, ht]
    by_cases h0 : x < t.toNat
    · rw [if_neg (by rw [hl]; omega), if_pos h0, if_pos (by omega)]
    · by_cases h1 : x < t.toNat + g.ticks.toNat
      · rw [if_pos (hl.mpr ⟨by omega, h1⟩), if_neg h0, if_pos (by omega)]
      · rw [if_neg (by rw [hl]; omega), if_neg h0, if_neg h1, if_neg (by omega),
          Nat.sub_add_eq]

/-- The level after the entries of a list have been played from level `l` on. -/
def levelAfter (l : Level) (n : Nat) : Level := if n % 2 = 0 then l else !l

theorem levelAfter_succ (l : Level) (n : Nat) : levelAfter l (n + 1) = !levelAfter l n := by
  unfold levelAfter
  rcases Nat.mod_two_eq_zero_or_one n with h | h
  · rw [if_neg (by omega), if_pos h]
  · rw [if_pos (by omega), if_neg (by omega), Bool.not_not]

theorem segmentsFrom_append (l : Level) (a b : List Entry) :
    segmentsFrom l (a ++ b) = segmentsFrom l a ++ segmentsFrom (levelAfter l a.length) b := by
  induction a generalizing l with
  | nil => rfl
  | cons t rest ih =>
    simp only [List.cons_append, segmentsFrom, ih, List.length_cons]
    rw [levelAfter_succ]
    congr 3
    unfold levelAfter
    split <;> simp

@[simp] theorem segmentsFrom_length (l : Level) (a : List Entry) :
    (segmentsFrom l a).length = a.length := by
  induction a generalizing l with
  | nil => rfl
  | cons t rest ih => simp [segmentsFrom, ih]

@[simp] theorem traceTicks_segmentsFrom (l : Level) (a : List Entry) :
    traceTicks (segmentsFrom l a) = (a.map BitVec.toNat).sum := by
  induction a generalizing l with
  | nil => rfl
  | cons t rest ih => simp [segmentsFrom, traceTicks, ih]

/-- The segments of the bits of a payload, played from high on: a pair for each bit. -/
def bitSegments (p : BitVec 42) (n : Nat) : List Segment := segmentsFrom high (bitEntries p n)

theorem bitSegments_succ (p : BitVec 42) (n : Nat) :
    bitSegments p (n + 1) = bitSegments p n ++
      [⟨high, highLen (wireBit p n)⟩, ⟨low, Config.pulseLen - highLen (wireBit p n)⟩] := by
  unfold bitSegments
  rw [bitEntries_succ, segmentsFrom_append, bitEntries_length]
  congr 1
  simp [levelAfter, symbol, segmentsFrom]

/-- One frame as segments: the preamble, the bits, the trailer (30_encoding.md R108). -/
theorem frameSegments_frameOf (p : BitVec 42) :
    frameSegments (frameOf p) =
      [⟨low, 840#16⟩, ⟨high, 1440#16⟩, ⟨low, 724#16⟩] ++ bitSegments p 42 ++
        [⟨high, 292#16⟩, ⟨low, 1476#16⟩] := by
  rw [frameOf_eq, frameSegments, segmentsFrom_append, segmentsFrom_append]
  simp [levelAfter, segmentsFrom, bitSegments]

theorem pair_ticks (b : Bool) :
    (highLen b).toNat + (Config.pulseLen - highLen b).toNat = 1016 := by
  cases b <;> decide

@[simp] theorem traceTicks_bitSegments (p : BitVec 42) (n : Nat) :
    traceTicks (bitSegments p n) = 1016 * n := by
  induction n with
  | zero => rfl
  | succ n ih =>
    have := pair_ticks (wireBit p n)
    rw [bitSegments_succ, traceTicks_append, ih]
    simp only [traceTicks]
    omega

end Sys2Proof.Machine
end

