-- ==== Sys2Proof/Laws/PerInstr.lean ====
section
/-! SUPPORT. What holds of every instruction as syntax, one lemma per constructor: its encoding carries the
match value of its row of spec/opcode_table.json under that row's mask. -/

namespace Sys2Proof.Laws.EncodingMatchesTable

/-- The match value of an instruction's row (30_encoding.md R104). CONFIGURE has no opcode. -/
def matchValue : Instr → BitVec 16
  | .shock _ _ _ => 0x0100#16
  | .vibrate _ _ _ => 0x0200#16
  | .beep _ _ => 0x0300#16
  | .configure _ => 0#16

/-- The mask of an instruction's row (30_encoding.md R104). -/
def mask : Instr → BitVec 16
  | .shock _ _ _ => 0x0F00#16
  | .vibrate _ _ _ => 0x0F00#16
  | .beep _ _ => 0x0F00#16
  | .configure _ => 0#16

/-- The 16-bit word of an offer. -/
def wordOf : Offer → BitVec 16
  | .command w _ => w
  | .config id => id

/-- The word an instruction encodes to matches its row under the mask. -/
def Statement (i : Instr) : Prop := wordOf (encode i) &&& mask i = matchValue i

/-- Under the mask of the commands a word keeps its command field only. -/
theorem commandWord_and_mask (c k : BitVec 4) (st : BitVec 8) :
    commandWord c k st &&& 0x0F00#16 = k.setWidth 16 <<< 8 := by
  ext j hj
  simp only [commandWord, BitVec.getElem_and, BitVec.getElem_append, BitVec.getElem_shiftLeft,
    BitVec.getElem_setWidth]
  interval_cases j <;> simp

theorem shock (chan : BitVec 4) (strength : BitVec 8) (d : Duration) :
    Statement (.shock chan strength d) := commandWord_and_mask chan 1#4 strength

theorem vibrate (chan : BitVec 4) (strength : BitVec 8) (d : Duration) :
    Statement (.vibrate chan strength d) := commandWord_and_mask chan 2#4 strength

theorem beep (chan : BitVec 4) (d : Duration) : Statement (.beep chan d) :=
  commandWord_and_mask chan 3#4 0#8

theorem configure (id : BitVec 16) : Statement (.configure id) := BitVec.and_zero

end Sys2Proof.Laws.EncodingMatchesTable
end

