-- ==== Sys2Proof/Laws/Step.lean ====
section
/-! SUPPORT. What each shared operation can do, said once, and what a step of the machine can do. -/

namespace Sys2Proof.Machine

/-! ### Flags and handshakes -/

theorem busy_iff {s : State} : s.busy = true ↔ s.phase = .check ∨ s.phase = .drive := by
  simp [State.busy]

theorem cfgReady_iff {s : State} :
    s.cfgReady = true ↔ s.phase = .unconfigured ∧ s.inputs.rst = false := by
  simp [State.cfgReady]

theorem cmdReady_iff {s : State} : s.cmdReady = true ↔ s.phase = .idle ∧ s.inputs.rst = false := by
  simp [State.cmdReady]

theorem inReset_iff {s : State} :
    s.inReset = true ↔ s.phase = .unconfigured ∧ s.idx = 0#7 ∧ s.level = low ∧ s.txOut = low ∧
      s.faultCause = .none ∧ s.frameLen = 0#8 := by
  simp [State.inReset, Config.txIdle, and_assoc]

@[simp] theorem resetStep_inReset (s : State) : s.resetStep.inReset = true := by
  simp [inReset_iff]

/-- What is transferred is what a ready port is offered (10_state.md R54). -/
theorem handshake_eq_some {s : State} {o : Offer} :
    s.handshake = some o ↔
      (s.phase = .unconfigured ∧ s.inputs.rst = false ∧ s.inputs.cfgValid = true ∧
        o = .config s.inputs.cfgId) ∨
      (s.phase = .idle ∧ s.inputs.rst = false ∧ s.inputs.cmdValid = true ∧
        o = .command s.inputs.cmdWord s.inputs.cmdDuration) := by
  unfold State.handshake
  by_cases h1 : (s.cfgReady && s.inputs.cfgValid) = true
  · rw [if_pos h1]
    rw [Bool.and_eq_true, cfgReady_iff] at h1
    obtain ⟨⟨hp, hr⟩, hv⟩ := h1
    simp only [hp, hr, hv, Option.some.injEq, true_and, false_and, reduceCtorEq, or_false]
    exact eq_comm
  · rw [if_neg h1]
    by_cases h2 : (s.cmdReady && s.inputs.cmdValid) = true
    · rw [if_pos h2]
      rw [Bool.and_eq_true, cmdReady_iff] at h2
      obtain ⟨⟨hp, hr⟩, hv⟩ := h2
      simp only [hp, hr, hv, Option.some.injEq, true_and, false_and, reduceCtorEq, false_or]
      exact eq_comm
    · rw [if_neg h2]
      rw [Bool.and_eq_true, cfgReady_iff] at h1
      rw [Bool.and_eq_true, cmdReady_iff] at h2
      constructor
      · intro h
        cases h
      · rintro (⟨a, b, c, -⟩ | ⟨a, b, c, -⟩)
        · exact absurd ⟨⟨a, b⟩, c⟩ h1
        · exact absurd ⟨⟨a, b⟩, c⟩ h2

theorem handshake_none_of_busy {s : State} (h : s.busy = true) : s.handshake = none := by
  cases ho : s.handshake with
  | none => rfl
  | some o =>
    rw [handshake_eq_some] at ho
    rw [busy_iff] at h
    rcases ho with ⟨hp, -⟩ | ⟨hp, -⟩ <;> rw [hp] at h <;> simp at h

theorem handshake_none_of_rst {s : State} (h : s.inputs.rst = true) : s.handshake = none := by
  cases ho : s.handshake with
  | none => rfl
  | some o =>
    rw [handshake_eq_some, h] at ho
    simp at ho

/-- A due port change is the head of the plan, at a time that has come. -/
theorem dueEvent_eq_some {s : State} {p : Inputs} {rest : List HostEvent} :
    s.dueEvent = some (p, rest) ↔ ∃ t, s.host = ⟨.atTime t, p⟩ :: rest ∧ t ≤ s.time := by
  unfold State.dueEvent
  split
  · rename_i t q r he
    split
    · rename_i hle
      constructor
      · intro h
        cases h
        exact ⟨t, he, hle⟩
      · rintro ⟨t', he', -⟩
        rw [he] at he'
        cases he'
        rfl
    · rename_i hlt
      constructor
      · intro h
        cases h
      · rintro ⟨t', he', hle⟩
        rw [he] at he'
        cases he'
        exact absurd hle hlt
  · rename_i hno
    constructor
    · intro h
      cases h
    · rintro ⟨t, he, -⟩
      exact absurd he (hno t p rest)

/-! ### Meanings -/

theorem offerCommand_ready {s : State} (w : BitVec 16) (d : Duration) (hp : s.phase = .idle)
    (hr : s.inputs.rst = false) : offerCommand w d s = accept Config.taken w d s := by
  rw [offerCommand, if_pos (cmdReady_iff.mpr ⟨hp, hr⟩)]

theorem offerCommand_notReady {s : State} (w : BitVec 16) (d : Duration)
    (h : s.cmdReady = false) : offerCommand w d s = .next s := by
  rw [offerCommand, h]
  rfl

theorem execConfigure_ready {s : State} (id : BitVec 16) (hp : s.phase = .unconfigured)
    (hr : s.inputs.rst = false) :
    execConfigure id s = .next { s with deviceId := id, phase := .idle } := by
  rw [execConfigure, if_pos (cfgReady_iff.mpr ⟨hp, hr⟩)]

theorem execConfigure_notReady {s : State} (id : BitVec 16) (h : s.cfgReady = false) :
    execConfigure id s = .next s := by
  rw [execConfigure, h]
  rfl

/-- An acceptance depends on the word through its fields alone, the strength only as it takes effect. -/
theorem accept_congr {tm : Config.Timing} {w v : BitVec 16} {d : Duration} {s : State}
    (hc : chanField w = chanField v) (hk : cmdField w = cmdField v)
    (hs : effectiveStrength w = effectiveStrength v) : accept tm w d s = accept tm v d s := by
  have hl : s.latch w = s.latch v := by simp only [State.latch, hc, hk, hs]
  simp only [accept, State.launch, hc, hk, hl]

theorem offerCommand_congr {w v : BitVec 16} {d : Duration} {s : State}
    (hc : chanField w = chanField v) (hk : cmdField w = cmdField v)
    (hs : effectiveStrength w = effectiveStrength v) :
    offerCommand w d s = offerCommand v d s := by
  simp only [offerCommand, accept_congr hc hk hs]

/-- The meaning of the instruction a command word decodes to is the word's acceptance. -/
theorem exec_of_decode {w : BitVec 16} {d : Duration} {i : Instr}
    (h : decodeCommand w d = .legal i) (s : State) : exec i s = offerCommand w d s := by
  obtain ⟨-, ⟨hk, rfl⟩ | ⟨hk, rfl⟩ | ⟨hk, rfl⟩⟩ := decodeCommand_legal h <;>
    simp only [exec, execShock, execVibrate, execBeep] <;>
    apply offerCommand_congr <;> simp [hk, effectiveStrength]

/-- An acceptance faults on an illegal channel, then on an illegal command, else launches if the clock
has room (42_transmitter_session.md R194). -/
theorem accept_cases {tm : Config.Timing} {w : BitVec 16} {d : Duration} {s t : State}
    (h : accept tm w d s = .next t) :
    (legalChannel (chanField w) = false ∧ t = s.takeFault .illegalChannel) ∨
    (legalChannel (chanField w) = true ∧ legalCommand (cmdField w) = false ∧
      t = s.takeFault .illegalCommand) ∨
    (legalChannel (chanField w) = true ∧ legalCommand (cmdField w) = true ∧
      launchFits tm s.time d = true ∧ t = s.launch tm w d) := by
  unfold accept at h
  split at h
  · cases h
    simp_all
  · split at h
    · cases h
      simp_all
    · split at h
      · cases h
        simp_all
      · cases h

theorem accept_launch {tm : Config.Timing} {w : BitVec 16} {d : Duration} {s : State}
    (hc : legalChannel (chanField w) = true) (hk : legalCommand (cmdField w) = true)
    (hf : launchFits tm s.time d = true) : accept tm w d s = .next (s.launch tm w d) := by
  simp [accept, hc, hk, hf]

/-! ### The loop -/

theorem le_later (a b : Ticks) : a.toNat ≤ (later a b).toNat := by
  unfold later
  split
  · rename_i hle
    exact hle
  · exact le_refl _

/-- A reset the host makes before `bound` comes neither before the present time nor after `bound`. -/
theorem resetBefore_range {bound : Nat} {now r : Ticks} {l : List HostEvent}
    (h : resetBefore bound now l = some r) : now.toNat ≤ r.toNat ∧ r.toNat < bound := by
  induction l generalizing now with
  | nil => simp [resetBefore] at h
  | cons e rest ih =>
    obtain ⟨m, p⟩ := e
    cases m with
    | whenFree d => simp [resetBefore] at h
    | atTime t =>
      have hmax := le_later now t
      rw [resetBefore] at h
      by_cases hlt : (later now t).toNat < bound
      · rw [if_pos hlt] at h
        by_cases hp : p.rst = true
        · rw [if_pos hp] at h
          cases h
          exact ⟨hmax, hlt⟩
        · rw [if_neg hp] at h
          have := ih h
          omega
      · rw [if_neg hlt] at h
        cases h

/-- Entry step: cut short by a reset, or played to its end (41_pulse_driver.md R172). -/
theorem entryStep_cases {tm : Config.Timing} {s t : State} (h : entryStep tm s = .next t) :
    ∃ e, s.frame.read s.idx = e ∧
      ((∃ cut, resetBefore (s.time.toNat + holdTicks tm e) s.time s.host = some cut ∧
          t = { s with
            txOut := s.level, trace := s.trace ++ [⟨s.level, e⟩],
            starts := s.starts ++ [s.time], time := cut }) ∨
       (resetBefore (s.time.toNat + holdTicks tm e) s.time s.host = none ∧
          s.time.toNat + holdTicks tm e < 2 ^ 64 ∧
          t = { s with
            txOut := s.level, trace := s.trace ++ [⟨s.level, e⟩],
            starts := s.starts ++ [s.time], time := s.time + BitVec.ofNat 64 (holdTicks tm e),
            level := !s.level, idx := s.idx + 1#7 })) := by
  unfold entryStep at h
  refine ⟨_, rfl, ?_⟩
  dsimp only at h
  split at h
  · rename_i cut hcut
    cases h
    exact .inl ⟨cut, hcut, rfl⟩
  · rename_i hno
    split at h
    · cases h
    · rename_i held hadv
      cases h
      obtain ⟨hroom, rfl⟩ := advance_eq_some.mp hadv
      exact .inr ⟨hno, hroom, rfl⟩

/-- Entry step in the usual case: no reset in the hold, room on the clock. -/
theorem entryStep_eq {tm : Config.Timing} {s : State} {e : Entry}
    (he : s.frame.read s.idx = e)
    (hno : resetBefore (s.time.toNat + holdTicks tm e) s.time s.host = none)
    (hroom : s.time.toNat + holdTicks tm e < 2 ^ 64) :
    entryStep tm s = .next { s with
      txOut := s.level, trace := s.trace ++ [⟨s.level, e⟩], starts := s.starts ++ [s.time],
      time := s.time + BitVec.ofNat 64 (holdTicks tm e),
      level := !s.level, idx := s.idx + 1#7 } := by
  unfold entryStep
  rw [he]
  dsimp only
  rw [hno]
  dsimp only
  have hadv : ((s.pinSet s.level).emit s.level e).advance (holdTicks tm e) = some _ :=
    advance_eq_some.mpr ⟨hroom, rfl⟩
  rw [hadv]
  rfl

/-- Deadline test: into DRIVE or back to IDLE (42_transmitter_session.md R198). -/
theorem deadlineTest_cases {tm : Config.Timing} {s t : State} (h : deadlineTest tm s = .next t) :
    s.time.toNat + tm.tChk < 2 ^ 64 ∧
    (s.time.toNat + tm.tChk < s.deadline.toNat ∧
      t = { s with
        time := s.time + BitVec.ofNat 64 tm.tChk, level := low, phase := .drive, idx := 0#7 } ∨
     s.deadline.toNat ≤ s.time.toNat + tm.tChk ∧
      t = { s with time := s.time + BitVec.ofNat 64 tm.tChk, phase := .idle }) := by
  unfold deadlineTest at h
  split at h
  · cases h
  · rename_i now hadv
    obtain ⟨hroom, rfl⟩ := advance_eq_some.mp hadv
    have htime := time_add_toNat hroom
    refine ⟨hroom, ?_⟩
    dsimp only at h
    split at h
    · rename_i hlt
      cases h
      rw [BitVec.lt_def, htime] at hlt
      exact .inl ⟨hlt, rfl⟩
    · rename_i hlt
      cases h
      rw [BitVec.lt_def, htime] at hlt
      exact .inr ⟨by omega, rfl⟩

theorem deadlineTest_pass {tm : Config.Timing} {s : State}
    (hroom : s.time.toNat + tm.tChk < 2 ^ 64) (hlt : s.time.toNat + tm.tChk < s.deadline.toNat) :
    deadlineTest tm s = .next { s with
      time := s.time + BitVec.ofNat 64 tm.tChk, level := low, phase := .drive, idx := 0#7 } := by
  unfold deadlineTest
  rw [advance_eq_some.mpr ⟨hroom, rfl⟩]
  dsimp only
  rw [if_pos]
  rw [BitVec.lt_def, time_add_toNat hroom]
  exact hlt

theorem deadlineTest_fail {tm : Config.Timing} {s : State}
    (hroom : s.time.toNat + tm.tChk < 2 ^ 64) (hge : s.deadline.toNat ≤ s.time.toNat + tm.tChk) :
    deadlineTest tm s = .next { s with
      time := s.time + BitVec.ofNat 64 tm.tChk, phase := .idle } := by
  unfold deadlineTest
  rw [advance_eq_some.mpr ⟨hroom, rfl⟩]
  dsimp only
  rw [if_neg]
  rw [BitVec.lt_def, time_add_toNat hroom]
  omega

/-- The step of phase DRIVE: an entry or the frame end (41_pulse_driver.md R171). -/
theorem driveStep_cases {tm : Config.Timing} {s t : State} (h : driveStep tm s = .next t) :
    (s.idx.toNat < s.frameLen.toNat ∧ entryStep tm s = .next t) ∨
    (s.idx.toNat = s.frameLen.toNat ∧ t = frameEndStep s) := by
  unfold driveStep at h
  split at h
  · rename_i hlt
    exact .inl ⟨hlt, h⟩
  · split at h
    · rename_i heq
      cases h
      exact .inr ⟨heq, rfl⟩
    · cases h

/-- A step of the loop in a busy phase is the test or the driver (42_transmitter_session.md R197). -/
theorem loopStep_cases {tm : Config.Timing} {s t : State} (hb : s.busy = true)
    (h : loopStep tm s = .next t) :
    (s.phase = .check ∧ deadlineTest tm s = .next t) ∨
    (s.phase = .drive ∧ driveStep tm s = .next t) := by
  unfold loopStep at h
  rcases busy_iff.mp hb with hp | hp <;> rw [hp] at h
  · exact .inl ⟨hp, h⟩
  · exact .inr ⟨hp, h⟩

/-! ### Waiting -/

theorem waitFreely_time_le (s : State) : s.time.toNat ≤ s.waitFreely.time.toNat := by
  have h := s.time.isLt
  show s.time.toNat ≤ (s.time + BitVec.ofNat 64 _).toNat
  rw [time_add_toNat]
  · omega
  · have := Nat.min_le_right (Config.idleTicks s.draws).toNat (2 ^ 64 - 1 - s.time.toNat)
    omega

/-- A wait changes the time, the host's plan and the count of free values only, and time does not go back
(42_transmitter_session.md R209). -/
theorem waitStep_cases {s t : State} (h : waitStep s = .next t) :
    t = { s with time := t.time, host := t.host, draws := t.draws } ∧
      s.time.toNat ≤ t.time.toNat := by
  unfold waitStep at h
  split at h
  · cases h
    exact ⟨rfl, le_later _ _⟩
  · split at h
    · cases h
      exact ⟨rfl, waitFreely_time_le s⟩
    · split at h
      · cases h
      · rename_i later hadv
        obtain ⟨hroom, rfl⟩ := advance_eq_some.mp hadv
        cases h
        refine ⟨rfl, ?_⟩
        dsimp only
        rw [time_add_toNat hroom]
        omega
  · cases h
    exact ⟨rfl, waitFreely_time_le s⟩

/-! ### The step -/

theorem step_reset {s : State} (hr : s.inputs.rst = true) (hn : s.inReset = false) :
    step s = .next s.resetStep := by
  unfold step State.nextAction
  simp only [hr, hn, Bool.not_false, Bool.and_self, if_true]

theorem step_portChange {s : State} {p : Inputs} {rest : List HostEvent}
    (hr : s.inputs.rst = true → s.inReset = true) (hd : s.dueEvent = some (p, rest)) :
    step s = .next (s.drivePorts p rest) := by
  have hf : (s.inputs.rst && !s.inReset) = false := by
    cases h : s.inputs.rst
    · rfl
    · simp [hr h]
  unfold step State.nextAction
  rw [hf, hd]
  rfl

theorem step_loop {s : State} (hb : s.busy = true) (hr : s.inputs.rst = false)
    (hd : s.dueEvent = none) : step s = loopStep Config.taken s := by
  unfold step State.nextAction
  rw [hr, hd, hb]
  rfl

/-- At a handshake the step runs the decoded instruction, or takes the fault of an illegal word. -/
theorem step_transfer {s : State} {o : Offer} (hd : s.dueEvent = none)
    (ho : s.handshake = some o) :
    step s = match decodeOffer o with
      | .legal i => exec i (s.lower o)
      | .illegal cause => .next ((s.lower o).takeFault cause) := by
  have hr : s.inputs.rst = false := by
    rcases handshake_eq_some.mp ho with ⟨-, h, -⟩ | ⟨-, h, -⟩ <;> exact h
  have hb : s.busy = false := by
    cases h : s.busy
    · rfl
    · rw [handshake_none_of_busy h] at ho
      cases ho
  unfold step State.nextAction
  rw [hr, hd, hb, ho]
  rfl

theorem step_wait {s : State} (hr : s.inputs.rst = true → s.inReset = true)
    (hd : s.dueEvent = none) (hb : s.busy = false) (ho : s.handshake = none) :
    step s = waitStep s := by
  have hf : (s.inputs.rst && !s.inReset) = false := by
    cases h : s.inputs.rst
    · rfl
    · simp [hr h]
  unfold step State.nextAction
  rw [hf, hd, hb, ho]
  rfl

/-- A command's handshake, as the acceptance of the word offered. -/
theorem step_accept {s : State} (hp : s.phase = .idle) (hr : s.inputs.rst = false)
    (hv : s.inputs.cmdValid = true) (hd : s.dueEvent = none) :
    step s = accept Config.taken s.inputs.cmdWord s.inputs.cmdDuration
      { s with inputs := { s.inputs with cmdValid := false } } := by
  rw [step_transfer hd (handshake_eq_some.mpr (.inr ⟨hp, hr, hv, rfl⟩))]
  simp only [decodeOffer, State.lower]
  cases h : decodeCommand s.inputs.cmdWord s.inputs.cmdDuration with
  | legal i => exact (exec_of_decode h _).trans (offerCommand_ready _ _ hp hr)
  | illegal c =>
    rcases decodeCommand_illegal h with ⟨hc, rfl⟩ | ⟨hc, hk, rfl⟩ <;> simp [accept, *]

/-- A configuration's handshake. -/
theorem step_configure {s : State} (hp : s.phase = .unconfigured) (hr : s.inputs.rst = false)
    (hv : s.inputs.cfgValid = true) (hd : s.dueEvent = none) :
    step s = .next { s with
      inputs := { s.inputs with cfgValid := false }, deviceId := s.inputs.cfgId, phase := .idle } := by
  rw [step_transfer hd (handshake_eq_some.mpr (.inl ⟨hp, hr, hv, rfl⟩))]
  exact execConfigure_ready _ hp hr

/-- What a step can do: the six kinds of step that answer a next state (42_transmitter_session.md R210). -/
theorem step_cases {s t : State} (h : step s = .next t) :
    (s.inputs.rst = true ∧ s.inReset = false ∧ t = s.resetStep) ∨
    (∃ p rest, (s.inputs.rst = true → s.inReset = true) ∧ s.dueEvent = some (p, rest) ∧
      t = s.drivePorts p rest) ∨
    (s.inputs.rst = false ∧ s.dueEvent = none ∧ s.busy = true ∧
      loopStep Config.taken s = .next t) ∨
    (s.inputs.rst = false ∧ s.dueEvent = none ∧ s.phase = .unconfigured ∧
      s.inputs.cfgValid = true ∧
      t = { s with
        inputs := { s.inputs with cfgValid := false }, deviceId := s.inputs.cfgId,
        phase := .idle }) ∨
    (s.inputs.rst = false ∧ s.dueEvent = none ∧ s.phase = .idle ∧ s.inputs.cmdValid = true ∧
      accept Config.taken s.inputs.cmdWord s.inputs.cmdDuration
        { s with inputs := { s.inputs with cmdValid := false } } = .next t) ∨
    ((s.inputs.rst = true → s.inReset = true) ∧ s.dueEvent = none ∧ s.busy = false ∧
      s.handshake = none ∧ waitStep s = .next t) := by
  by_cases hreset : s.inputs.rst = true ∧ s.inReset = false
  · rw [step_reset hreset.1 hreset.2] at h
    cases h
    exact .inl ⟨hreset.1, hreset.2, rfl⟩
  have hr : s.inputs.rst = true → s.inReset = true := by
    intro hr
    cases hi : s.inReset
    · exact absurd ⟨hr, hi⟩ hreset
    · rfl
  right
  cases hd : s.dueEvent with
  | some e =>
    obtain ⟨p, rest⟩ := e
    rw [step_portChange hr hd] at h
    cases h
    exact .inl ⟨p, rest, hr, rfl, rfl⟩
  | none =>
    right
    cases hb : s.busy with
    | true =>
      have hr' : s.inputs.rst = false := by
        cases hrst : s.inputs.rst
        · rfl
        · have := (inReset_iff.mp (hr hrst)).1
          rw [busy_iff, this] at hb
          simp at hb
      rw [step_loop hb hr' hd] at h
      exact .inl ⟨hr', rfl, rfl, h⟩
    | false =>
      right
      cases ho : s.handshake with
      | none =>
        rw [step_wait hr hd hb ho] at h
        exact .inr (.inr ⟨hr, rfl, rfl, rfl, h⟩)
      | some o =>
        rcases handshake_eq_some.mp ho with ⟨hp, hr', hv, -⟩ | ⟨hp, hr', hv, -⟩
        · rw [step_configure hp hr' hv hd] at h
          cases h
          exact .inl ⟨hr', rfl, hp, hv, rfl⟩
        · rw [step_accept hp hr' hv hd] at h
          exact .inr (.inl ⟨hr', rfl, hp, hv, h⟩)

end Sys2Proof.Machine
end

