-- ==== Sys2Proof/Laws/Session.lean ====
section
/-! SUPPORT. The laws of a command: the arithmetic of its frames, what its acceptance leaves, and the runs
of the repeat loop. -/

namespace Sys2Proof.Machine

/-! ### Arithmetic (42_transmitter_session.md R199) -/

theorem framePeriod_pos (tm : Config.Timing) : 0 < framePeriod tm := by
  unfold framePeriod Config.frameUs
  omega

theorem framePeriod_taken : framePeriod Config.taken = 47444 := by decide

theorem framesFor_taken (d : Nat) : framesFor Config.taken d = (d + 47443) / 47444 := by
  have h : Config.taken.tChk = 0 := rfl
  rw [framesFor, framePeriod_taken, h]
  omega

theorem loopTicks_taken (d : Nat) : loopTicks Config.taken d = (d + 47443) / 47444 * 47444 := by
  have h : Config.taken.tChk = 0 := rfl
  rw [loopTicks, framePeriod_taken, framesFor_taken, h, Nat.add_zero]

theorem launchFits_iff {s : State} {d : Duration} :
    launchFits Config.taken s.time d = true ↔ roomFor s d := by
  have h : Config.taken.tEnc = 0 := rfl
  rw [launchFits, loopTicks_taken, h, Nat.add_zero, decide_eq_true_iff]
  exact Iff.rfl

theorem launchFits_false {s : State} {d : Duration} (h : ¬ roomFor s d) :
    launchFits Config.taken s.time d = false := by
  rw [← launchFits_iff] at h
  simpa using h

/-- The entries of a frame sum to 47 444 (00_scope.md R6). -/
theorem encodeFrame_sum (id : BitVec 16) (chan cmd : BitVec 4) (str : BitVec 8) :
    ((encodeFrame id chan cmd str).map BitVec.toNat).sum = 47444 := by
  rw [← traceTicks_segmentsFrom low]
  show traceTicks (frameSegments (frameOf _)) = _
  rw [frameSegments_frameOf]
  simp [traceTicks]

/-! ### The host that goes on only when the block is free -/

theorem resetBefore_of_closedLoop {s : State} (h : s.closedLoop = true) (b : Nat) (now : Ticks) :
    resetBefore b now s.host = none := by
  unfold State.closedLoop at h
  cases hh : s.host with
  | nil => rfl
  | cons e r =>
    obtain ⟨m, p⟩ := e
    rw [hh] at h
    cases m with
    | atTime t => simp at h
    | whenFree d => rfl

theorem dueEvent_of_closedLoop {s : State} (h : s.closedLoop = true) : s.dueEvent = none := by
  cases hd : s.dueEvent with
  | none => rfl
  | some e =>
    obtain ⟨p, rest⟩ := e
    obtain ⟨t, ht, -⟩ := dueEvent_eq_some.mp hd
    unfold State.closedLoop at h
    rw [ht] at h
    simp at h

/-! ### Runs -/

theorem core_run_zero (s : State) : core.run 0 s = .next s := Host.Core.run.eq_1 core s

theorem core_run_of_step {k : Nat} {s t : State} (h : step s = .next t) :
    core.run (k + 1) s = core.run k t := by
  have hstep : core.step s = .next t := h
  rw [Host.Core.run.eq_2 core s k, hstep]

theorem loopStep_check {tm : Config.Timing} {s : State} (h : s.phase = .check) :
    loopStep tm s = deadlineTest tm s := by rw [loopStep, h]

theorem loopStep_drive {tm : Config.Timing} {s : State} (h : s.phase = .drive) :
    loopStep tm s = driveStep tm s := by rw [loopStep, h]

theorem loopRun_of_step {tm : Config.Timing} {k : Nat} {s t : State}
    (h : loopStep tm s = .next t) : loopRun tm (k + 1) s = loopRun tm k t := by
  rw [loopRun, h]

theorem loopRun_add {tm : Config.Timing} {a b : Nat} {s t : State}
    (h : loopRun tm a s = .next t) : loopRun tm (a + b) s = loopRun tm b t := by
  induction a generalizing s with
  | zero =>
    cases h
    rw [Nat.zero_add]
  | succ a ih =>
    rw [show a + 1 + b = a + b + 1 by omega]
    cases hs : loopStep tm s with
    | next u =>
      rw [loopRun_of_step hs] at h ⊢
      exact ih h
    | fault r =>
      rw [loopRun, hs] at h
      cases h
    | refused r =>
      rw [loopRun, hs] at h
      cases h

/-- A step of the loop keeps the ports, the host's plan and the free values. -/
theorem loopStep_frame {tm : Config.Timing} {s t : State} (hb : s.busy = true)
    (h : loopStep tm s = .next t) :
    t.inputs = s.inputs ∧ t.host = s.host ∧ t.draws = s.draws := by
  rcases loopStep_cases hb h with ⟨_, h⟩ | ⟨_, h⟩
  · obtain ⟨_, ⟨_, rfl⟩ | ⟨_, rfl⟩⟩ := deadlineTest_cases h <;> exact ⟨rfl, rfl, rfl⟩
  · rcases driveStep_cases h with ⟨_, h⟩ | ⟨_, rfl⟩
    · obtain ⟨e, _, ⟨_, _, rfl⟩ | ⟨_, _, rfl⟩⟩ := entryStep_cases h <;> exact ⟨rfl, rfl, rfl⟩
    · exact ⟨rfl, rfl, rfl⟩

/-- What DRIVE over a list of entries leaves: the pin low, one frame counted, a segment for each entry, all
else as before but the time and the level (41_pulse_driver.md R180). -/
theorem playList_eq (tm : Config.Timing) (l : List Entry) (s : State) :
    State.playList tm l s = { s with
      txOut := low
      phase := .check
      frames := s.frames + 1
      trace := s.trace ++ segmentsFrom s.level l
      starts := (State.playList tm l s).starts
      time := (State.playList tm l s).time
      level := levelAfter s.level l.length } := by
  induction l generalizing s with
  | nil => simp [State.playList, frameEndStep, State.pinSet, segmentsFrom, levelAfter]
  | cons t rest ih =>
    rw [State.playList, ih]
    simp only [State.emit, State.pinSet, segmentsFrom, List.append_assoc, List.cons_append,
      List.nil_append, List.length_cons, levelAfter_succ]
    congr 1
    unfold levelAfter
    split <;> simp

/-! ### The times of the segments -/

/-- Where every segment has run its time, none lasts from now on. -/
theorem lastsAt_of_traceEnded {s : State} (h : s.traceEnded) {x : Nat} (hx : s.time.toNat ≤ x) :
    ∀ p ∈ s.starts.zip s.trace, lastsAt x p = false := by
  intro p hp
  have := h.2 p hp
  rw [Bool.eq_false_iff, ne_eq, lastsAt_iff]
  omega

/-- Where every segment has run its time, the waveform is low from now on. -/
theorem waveform_of_traceEnded {s : State} (h : s.traceEnded) {x : Nat} (hx : s.time.toNat ≤ x) :
    s.waveform x = low :=
  waveform_of_none (lastsAt_of_traceEnded h hx)

/-! ### What an acceptance leaves -/

/-- The buffer after a launch holds the frame of the word (42_transmitter_session.md R194). -/
theorem launch_read {s : State} {tm : Config.Timing} {w : BitVec 16} {d : Duration} (k : Nat)
    (hk : k < 89) :
    (encodeFrame s.deviceId (chanField w) (cmdField w) (effectiveStrength w))[k]? =
      some ((s.launch tm w d).frame.read (BitVec.ofNat 7 k)) := by
  rw [launch_frame]
  exact read_writeFrame _ _ _ _ _ _ hk

/-- An accepted command is loaded. -/
theorem launch_loaded {s : State} {tm : Config.Timing} {w : BitVec 16} {d : Duration}
    (hc : legalChannel (chanField w) = true) (hk : legalCommand (cmdField w) = true) :
    Loaded (s.launch tm w d) := by
  refine ⟨hc, hk, ?_, rfl, launch_frameLen s tm w d, ?_⟩
  · intro h
    simp only [launch_cmd] at h
    simp [effectiveStrength, h]
  · intro k hk
    simp only [launch_deviceId, launch_chan, launch_cmd, launch_strength]
    exact launch_read k hk

end Sys2Proof.Machine
end

