-- ==== Sys2Proof/Tests/Slice0.lean ====
section
/-! SUPPORT. The model's own tests: well-formedness, decoding, one step of each instruction against the
spec's worked examples, and for every statement that has hypotheses a state and operands that meet them. -/

namespace Sys2Proof.Tests

open Sys2Proof.Machine

/-! ### Small states -/

/-- A configured, idle block (95_test_vectors.md uses this id throughout). -/
def idleAt (id : BitVec 16) : State := { State.reset with phase := .idle, deviceId := id }

/-- An idle block that is offered a command. -/
def offered (id w : BitVec 16) (d : Duration) : State :=
  { idleAt id with inputs := ⟨false, false, 0#16, true, w, d⟩ }

/-- An unconfigured block that is offered an id. -/
def offeredId (id : BitVec 16) : State :=
  { State.reset with inputs := ⟨false, true, id, false, 0#16, 0#32⟩ }

/-- A command just accepted: VIBRATE on channel 3, strength 99, 1 microsecond, id 0x0D25. -/
def checking : State := (idleAt 0x0D25#16).launch Config.taken 0x2263#16 1#32

/-- The same command with its first frame about to be played. -/
def driving : State := { checking with phase := .drive }

/-- The same command with a frame played to its end. -/
def frameEnd : State := { driving with idx := 89#7, level := high, time := 47444#64 }

/-- A block in FAULT. -/
def faulty : State := (idleAt 0x0D25#16).takeFault .illegalChannel

/-- The state a result goes on with. -/
def after : Result → Option State
  | .next t => some t
  | _ => none

theorem checking_loaded : Loaded checking := launch_loaded (by decide) (by decide)

theorem driving_loaded : Loaded driving := by
  obtain ⟨a, b, c, d, e, f⟩ := checking_loaded
  exact ⟨a, b, c, d, e, f⟩

theorem checking_frame_wf : checking.frame.wf = true := Memory.writeFrom_wf _ _ _ rfl

theorem inv_of_resting (s : State) (hb : s.busy = false) (hf : s.frame.wf = true)
    (hl : s.txOut = low) (hi : s.idx.toNat ≤ 89) (hn : s.frameLen = 0#8 ∨ s.frameLen = 89#8)
    (hc : s.faultCause ≠ .none ↔ s.phase = .fault)
    (hu : s.phase = .unconfigured → s.inReset = true) (hs : s.starts.length = s.trace.length) :
    Inv s := by
  have hd : s.phase ≠ .drive := by
    intro h
    rw [State.busy, h] at hb
    cases hb
  refine ⟨hf, fun _ => hl, fun h => absurd h hd, fun h => absurd h hd, hi, hn, hc, hu, hs,
    fun h => ?_⟩
  rw [hb] at h
  cases h

theorem idle_inv : Inv (idleAt 0x0D25#16) :=
  inv_of_resting _ rfl rfl rfl (by decide) (.inl rfl) (by decide) (by decide) rfl

theorem unconfigured_inv : Inv (offeredId 0x0D25#16) :=
  inv_of_resting _ rfl rfl rfl (by decide) (.inl rfl) (by decide) (by decide) rfl

theorem faulty_inv : Inv faulty :=
  inv_of_resting _ rfl rfl rfl (by decide) (.inl rfl) (by decide) (by decide) rfl

theorem checking_inv : Inv checking :=
  ⟨checking_frame_wf, fun _ => rfl, fun h => (nomatch h), fun h => (nomatch h), by decide,
    .inr checking_loaded.lengthIs89, by decide, fun h => (nomatch h), rfl, fun _ => checking_loaded⟩

theorem driving_inv : Inv driving :=
  ⟨checking_frame_wf, fun _ => rfl, fun _ => by decide, fun _ => by decide, by decide,
    .inr checking_loaded.lengthIs89, by decide, fun h => (nomatch h), rfl, fun _ => driving_loaded⟩

theorem frameEnd_inv : Inv frameEnd := by
  have hl : frameEnd.frameLen = 89#8 := checking_loaded.lengthIs89
  refine ⟨checking_frame_wf, fun h => absurd rfl h, fun _ => by decide, fun _ => ?_, by decide, .inr hl,
    by decide, fun h => (nomatch h), rfl, fun _ => ?_⟩
  · rw [hl]
    decide
  · obtain ⟨a, b, c, d, e, f⟩ := checking_loaded
    exact ⟨a, b, c, d, e, f⟩

theorem checking_room : ClockRoom checking := by
  intro _ _ _
  decide

/-! ### Well-formedness -/

theorem test_wf_shock : (Instr.shock 2#4 255#8 0xFFFFFFFF#32).wf = true ∧
    (Instr.shock 3#4 0#8 0#32).wf = false := by decide

theorem test_wf_vibrate : (Instr.vibrate 2#4 255#8 0xFFFFFFFF#32).wf = true ∧
    (Instr.vibrate 3#4 0#8 0#32).wf = false := by decide

theorem test_wf_beep : (Instr.beep 2#4 0xFFFFFFFF#32).wf = true ∧
    (Instr.beep 15#4 0#32).wf = false := by decide

theorem test_wf_codes : legalChannel 3#4 = false ∧ legalCommand 0#4 = false ∧
    legalCommand 4#4 = false ∧ (Instr.configure 0xFFFF#16).wf = true := by decide

/-! ### Decoding: words written out from 30_encoding.md R101, channel, command, strength -/

/-- SHOCK 2, 50 (43_commands.md R221). -/
theorem test_decode_shock : decodeOffer (.command 0b0001000100110010#16 100000#32) =
    .legal (.shock 1#4 50#8 100000#32) := by decide

/-- VIBRATE 1, 1 (43_commands.md R222). -/
theorem test_decode_vibrate : decodeOffer (.command 0b0000001000000001#16 2000000#32) =
    .legal (.vibrate 0#4 1#8 2000000#32) := by decide

/-- BEEP 1, with the strength field 0 and 0xFF (43_commands.md R223). -/
theorem test_decode_beep : decodeOffer (.command 0b0000001100000000#16 7#32) = .legal (.beep 0#4 7#32) ∧
    decodeOffer (.command 0b0000001111111111#16 7#32) = .legal (.beep 0#4 7#32) := by decide

/-- The configuration port has one format (30_encoding.md R103). -/
theorem test_decode_configure : decodeOffer (.config 0x0D25#16) = .legal (.configure 0x0D25#16) := by
  decide

/-- The channel is checked before the command (60_exceptions.md R257). -/
theorem test_decode_illegal : decodeOffer (.command 0x3F00#16 0#32) = .illegal .illegalChannel ∧
    decodeOffer (.command 0x2400#16 0#32) = .illegal .illegalCommand := by decide

/-- The words of the opcode table. -/
theorem test_decode_table : decodeTableWord 16 0x0100 = some (.shock 0#4 0#8 0#32) ∧
    decodeTableWord 16 0x0200 = some (.vibrate 0#4 0#8 0#32) ∧
    decodeTableWord 16 0x0300 = some (.beep 0#4 0#32) ∧
    decodeTableWord 16 0x0000 = some (.configure 0#16) := by decide

/-! ### One step of each instruction -/

/-- SHOCK 2, 50, 100000 with id 0xABCD: the registers of 43_commands.md R221's worked example. -/
theorem test_shock_accepted :
    (after (step (offered 0xABCD#16 0x1132#16 100000#32))).map
      (fun t => (t.phase, t.chan, t.cmd, t.strength, t.chk, t.deadline)) =
    some (.check, 1#4, 1#4, 50#8, 0xAC#8, 100000#64) := by decide

theorem test_shock_payload : payload 0xABCD#16 1#4 1#4 50#8 = 0x2AF3444CAB0#42 := by decide

/-- VIBRATE 1, 1, 2000000 with id 0x0D25 (43_commands.md R222). -/
theorem test_vibrate_accepted :
    (after (step (offered 0x0D25#16 0x0201#16 2000000#32))).map
      (fun t => (t.phase, t.chan, t.cmd, t.strength, t.chk, t.frameLen)) =
    some (.check, 0#4, 2#4, 1#8, 0x35#8, 89#8) := by decide

theorem test_vibrate_payload : payload 0x0D25#16 0#4 2#4 1#8 = 0x034940804D4#42 := by decide

/-- BEEP 1 with a strength field of 0xFF: the strength is 0 all the same (43_commands.md R223). -/
theorem test_beep_accepted :
    (after (step (offered 0x0D25#16 0x03FF#16 7#32))).map
      (fun t => (t.phase, t.cmd, t.strength, t.chk, t.frames)) =
    some (.check, 3#4, 0#8, 0x35#8, 0) := by decide

/-- CONFIGURE (42_transmitter_session.md R190). -/
theorem test_configure_taken :
    (after (step (offeredId 0x0D25#16))).map (fun t => (t.phase, t.deviceId, t.inputs.cfgValid)) =
    some (.idle, 0x0D25#16, false) := by decide

/-- CONFIGURE of a configured block has no effect (42_transmitter_session.md R191). -/
theorem test_configure_once :
    (after (exec (.configure 0xFFFF#16) (idleAt 0x0D25#16))).map (fun t => t.deviceId) =
    some 0x0D25#16 := by decide

/-- The step after `withFetchWord` runs the table's word, from reset. -/
theorem test_fetch_runs :
    (after (step (State.reset.withFetchWord 16 0x0100))).map (fun t => (t.phase, t.cmd)) =
      some (.check, 1#4) ∧
    (after (step (State.reset.withFetchWord 16 0x0200))).map (fun t => (t.phase, t.cmd)) =
      some (.check, 2#4) ∧
    (after (step (State.reset.withFetchWord 16 0x0300))).map (fun t => (t.phase, t.cmd)) =
      some (.check, 3#4) ∧
    (after (step (State.reset.withFetchWord 16 0x0000))).map (fun t => (t.phase, t.deviceId)) =
      some (.idle, 0#16) := by decide

/-- Entry 1 is played high for 1440 (41_pulse_driver.md R172, worked example). -/
theorem test_entry_step :
    (after (step { driving with idx := 1#7, level := high, time := 840#64 })).map
      (fun t => (t.txOut, t.time, t.level, t.idx)) = some (high, 2280#64, low, 2#7) := by decide

/-- Out of reset every entry of the buffer is a free value, and a write replaces that one entry (93 U6). -/
theorem test_unwritten_entry :
    State.reset.frame.read 127#7 = Config.freeEntry 0 127#7 ∧
    (State.reset.frame.write 126#7 1#16).read 127#7 = Config.freeEntry 0 127#7 ∧
    (State.reset.frame.write 127#7 1#16).read 127#7 = 1#16 := ⟨rfl, rfl, rfl⟩

/-- The pin is low between the segments of two commands, before the first and after the last (10_state.md
R52). -/
theorem test_waveform :
    let s := { State.reset with
      trace := [⟨high, 292#16⟩, ⟨high, 804#16⟩], starts := [1000#64, 2000#64] }
    [999, 1000, 1291, 1292, 1999, 2000, 2803, 2804].map s.waveform =
      [low, high, high, low, low, high, high, low] := by decide

/-- Only the empty program's run is over in phase UNCONFIGURED (42_transmitter_session.md R208). -/
theorem test_run_over : State.reset.runOver [] = true ∧ State.reset.runOver [.wait 1] = false := by
  decide

/-- The codes of 10_state.md R39 and 60_exceptions.md R251. -/
theorem test_codes : Phase.unconfigured.code = 0#3 ∧ Phase.fault.code = 4#3 ∧
    FaultCause.illegalChannel.code = 1#2 ∧ FaultCause.illegalCommand.code = 2#2 := by decide

/-- A line of a program: VIBRATE_MS 1, 2, 1000 (30_encoding.md R117). -/
theorem test_assemble : (Line.vibrateMs 1 2 1000).instr = some (.vibrate 0#4 2#8 1000000#32) ∧
    (Line.beepMs 1 4294968).instr = none ∧ (Line.shock 4 0 0).instr = none := by decide

/-! ### Witnesses: for each statement with hypotheses, data that meet all of them -/

theorem test_witness_DecodeEncodeRoundTrip : (Instr.beep 2#4 0xFFFFFFFF#32).wf = true ∧
    decodeOffer (.command 0x21FF#16 1#32) = .legal (.shock 2#4 255#8 1#32) ∧
    decodeOffer (.command 0x23FF#16 1#32) = .legal (.beep 2#4 1#32) := by decide

theorem test_witness_EncodeDecodeRoundTrip :
    decodeOffer (.command 0x2363#16 1#32) = .legal (.beep 2#4 1#32) := by decide

/-- The boundary words of each clause. -/
theorem test_witness_DecodingFollowsTheOpcodeMap :
    2 < (0x3000#16).toNat / 4096 ∧ 2 < (0xFFFF#16).toNat / 4096 ∧ (0x2FFF#16).toNat / 4096 ≤ 2 ∧
    (0x2100#16).toNat / 256 % 16 = 1 ∧ (0x02FF#16).toNat / 256 % 16 = 2 ∧
    (0x2363#16).toNat / 256 % 16 = 3 ∧ (0x20FF#16).toNat / 256 % 16 = 0 ∧
    4 ≤ (0x2400#16).toNat / 256 % 16 ∧ 4 ≤ (0x0F00#16).toNat / 256 % 16 := by decide

theorem test_witness_BeepIgnoresItsStrengthField :
    cmdField 0x23FF#16 = 3#4 ∧ (0x23FF#16).toNat / 256 = (0x2300#16).toNat / 256 ∧
    legalChannel (chanField 0x23FF#16) = true := by decide

theorem test_witness_ConfigureTakesTheId :
    (offeredId 0x0D25#16).phase = .unconfigured ∧ (offeredId 0x0D25#16).inputs.rst = false ∧
    (offeredId 0x0D25#16).inputs.cfgValid = true ∧ (offeredId 0x0D25#16).dueEvent = none := by decide

theorem test_witness_DeviceIdIsTakenOnce :
    (offered 0x0D25#16 0x0300#16 1#32).phase ≠ .unconfigured ∧
    (offered 0x0D25#16 0x0300#16 1#32).inputs.rst = false ∧
    ∃ t, step (offered 0x0D25#16 0x0300#16 1#32) = .next t :=
  ⟨by decide, rfl, _, rfl⟩

theorem test_witness_ShockIsAccepted : legalChannel 2#4 = true ∧ (idleAt 0#16).phase = .idle ∧
    (idleAt 0#16).inputs.rst = false ∧ roomFor (idleAt 0#16) 0xFFFFFFFF#32 := by
  refine ⟨rfl, rfl, rfl, ?_⟩
  unfold roomFor
  decide

/-- The last time at which a command of one microsecond still fits. -/
theorem test_witness_VibrateIsAccepted : legalChannel 0#4 = true ∧
    roomFor { idleAt 0#16 with time := 0xFFFFFFFFFFFF46AB#64 } 1#32 := by
  refine ⟨rfl, ?_⟩
  unfold roomFor
  decide

/-- The last time of the counter, with no duration. -/
theorem test_witness_BeepIsAccepted : legalChannel 1#4 = true ∧
    roomFor { idleAt 0#16 with time := 0xFFFFFFFFFFFFFFFF#64 } 0#32 := by
  refine ⟨rfl, ?_⟩
  unfold roomFor
  decide

/-- The first time at which a command of one microsecond no longer fits. -/
theorem test_witness_LaunchPastTheClockIsRefused : legalChannel 2#4 = true ∧
    ¬ roomFor { idleAt 0#16 with time := 0xFFFFFFFFFFFF46AC#64 } 1#32 := by
  refine ⟨rfl, ?_⟩
  unfold roomFor
  decide

/-- The clauses of an illegal channel, an illegal command (the codes 0, 4 and 15) and a legal word. -/
theorem test_witness_AcceptanceFollowsTheWord :
    (∀ w, (offered 0x0D25#16 w 1#32).phase = .idle ∧ (offered 0x0D25#16 w 1#32).inputs.rst = false ∧
      (offered 0x0D25#16 w 1#32).inputs.cmdValid = true ∧ (offered 0x0D25#16 w 1#32).dueEvent = none ∧
      roomFor (offered 0x0D25#16 w 1#32) 1#32) ∧
    2 < (chanField 0x3000#16).toNat ∧ (chanField 0x2000#16).toNat ≤ 2 ∧
    (cmdField 0x2000#16).toNat = 0 ∧ 4 ≤ (cmdField 0x2400#16).toNat ∧
    4 ≤ (cmdField 0x2F00#16).toNat ∧ 1 ≤ (cmdField 0x2100#16).toNat ∧
    (cmdField 0x23FF#16).toNat ≤ 3 := by
  refine ⟨fun w => ⟨rfl, rfl, rfl, rfl, ?_⟩, by decide⟩
  unfold roomFor
  show (0#64).toNat + _ < _
  decide

theorem test_witness_IllegalChannelFaults : 2 < (3#4).toNat ∧ 2 < (15#4).toNat ∧
    (idleAt 0#16).phase = .idle ∧ (idleAt 0#16).inputs.rst = false := by decide

theorem test_witness_CommandsAreNotTakenOutsideIdle : State.reset.phase ≠ .idle ∧
    checking.phase ≠ .idle ∧ driving.phase ≠ .idle ∧ faulty.phase ≠ .idle := by decide

theorem test_witness_StepRunsTheDecodedInstruction :
    (offered 0x0D25#16 0x2363#16 1#32).inputs.rst = false ∧
    (offered 0x0D25#16 0x2363#16 1#32).dueEvent = none ∧
    (offered 0x0D25#16 0x2363#16 1#32).phase = .idle ∧
    (offered 0x0D25#16 0x2363#16 1#32).inputs.cmdValid = true ∧
    decodeOffer (.command 0x2363#16 1#32) = .legal (.beep 2#4 1#32) ∧
    (offeredId 0x0D25#16).inputs.rst = false ∧ (offeredId 0x0D25#16).dueEvent = none ∧
    (offeredId 0x0D25#16).phase = .unconfigured ∧ (offeredId 0x0D25#16).inputs.cfgValid = true ∧
    decodeOffer (.config 0x0D25#16) = .legal (.configure 0x0D25#16) := by decide

theorem test_witness_UnconfiguredBlockTakesNoCommand :
    (offeredId 0x0D25#16).phase = .unconfigured ∧ Inv (offeredId 0x0D25#16) ∧
    (offeredId 0x0D25#16).inputs.rst = false ∧ (offeredId 0x0D25#16).dueEvent = none ∧
    decodeOffer (.command 0x0300#16 0#32) = .legal (.beep 0#4 0#32) ∧
    ∃ t, step (offeredId 0x0D25#16) = .next t :=
  ⟨rfl, unconfigured_inv, rfl, rfl, by decide, _, rfl⟩

theorem test_witness_ChecksumIsTheWrappingByteSum : (2#4).toNat ≤ 2 ∧ (3#4).toNat ≤ 3 ∧
    cmdField 0x03FF#16 = 3#4 := by decide

theorem test_witness_PayloadBitsInWireOrder : (2#4).toNat ≤ 2 ∧ (3#4).toNat ≤ 3 := by decide

theorem test_witness_EncodeWritesExactly89Entries : (88#7 : EntryIndex).toNat < 89 ∧
    89 ≤ (89#7 : EntryIndex).toNat ∧ 89 ≤ (127#7 : EntryIndex).toNat := by decide

theorem test_witness_BitPairsSumTo1016 : (idleAt 0xFFFF#16).deviceId.getLsbD 15 = true := by decide

theorem test_witness_FrameTimeAndHighTime : legalCommand 1#4 = true ∧ legalCommand 3#4 = true := by
  decide

theorem test_witness_EntriesStayInRange : 1476#16 ∈ encodeFrame 0#16 0#4 1#4 0#8 := by decide

theorem test_witness_EncodeIsInjective :
    encodeFrame 0x0D25#16 0#4 3#4 0#8 = encodeFrame 0x0D25#16 0#4 3#4 0#8 := rfl

theorem test_witness_FramesVaryInTheirFieldsOnly : (2#4).toNat ≤ 2 ∧ (3#4).toNat ≤ 3 := by decide

theorem test_witness_EntryStepPlaysOneEntry :
    driving.phase = .drive ∧ driving.idx.toNat < driving.frameLen.toNat ∧
    driving.frame.read driving.idx = 840#16 ∧ driving.inputs.rst = false ∧
    driving.dueEvent = none ∧ resetBefore (driving.time.toNat + 840) driving.time driving.host = none ∧
    driving.time.toNat + 840 < 2 ^ 64 := by decide

theorem test_witness_FrameEndForcesThePinLow :
    frameEnd.phase = .drive ∧ frameEnd.idx.toNat = frameEnd.frameLen.toNat ∧
    frameEnd.inputs.rst = false ∧ frameEnd.dueEvent = none ∧ Inv frameEnd :=
  ⟨rfl, by decide, rfl, rfl, frameEnd_inv⟩

/-- The empty list and a list of two entries, whose last is played high. -/
theorem test_witness_DriveOfAnyListEndsLow :
    (let s := { driving with frameLen := 0#8 }
     s.phase = .drive ∧ s.idx = 0#7 ∧ s.level = low ∧ s.frameLen.toNat = ([] : List Entry).length ∧
      s.closedLoop = true) ∧
    (let s := { driving with frameLen := 2#8 }
     s.frameLen.toNat = [840#16, 1440#16].length ∧
      ∀ k, k < 2 → [840#16, 1440#16][k]? = some (s.frame.read (BitVec.ofNat 7 k))) := by decide

theorem test_witness_DeadlineTestBranches :
    checking.phase = .check ∧ checking.inputs.rst = false ∧ checking.dueEvent = none ∧
    checking.time.toNat < checking.deadline.toNat ∧
    (let late := { checking with time := 1#64 }
     late.phase = .check ∧ late.dueEvent = none ∧ late.deadline.toNat ≤ late.time.toNat) ∧
    Inv checking :=
  ⟨rfl, rfl, rfl, by decide, by decide, checking_inv⟩

theorem test_witness_CommandPlaysCeilFrames :
    let s := offered 0x0D25#16 0x0263#16 47445#32
    s.phase = .idle ∧ s.inputs.rst = false ∧ s.inputs.cmdValid = true ∧
    decodeOffer (.command s.inputs.cmdWord s.inputs.cmdDuration) =
      .legal (.vibrate 0#4 99#8 47445#32) ∧
    s.txOut = low ∧ s.closedLoop = true ∧ roomFor s s.inputs.cmdDuration ∧ s.traceEnded := by
  refine ⟨rfl, rfl, rfl, by decide, rfl, rfl, ?_, rfl, by decide⟩
  unfold roomFor
  decide

theorem test_witness_RepeatLoopWithAnyOverheads :
    checking.phase = .check ∧ Loaded checking ∧ checking.txOut = low ∧ checking.closedLoop = true ∧
    checking.time.toNat + loopTicks ⟨3, 5, 7⟩ (checking.deadline.toNat - checking.time.toNat) <
      2 ^ 64 :=
  ⟨rfl, checking_loaded, rfl, rfl, by decide⟩

theorem test_witness_ZeroDurationSendsNothing :
    (∀ w, (offered 0x0D25#16 w 0#32).phase = .idle ∧ (offered 0x0D25#16 w 0#32).inputs.rst = false ∧
      (offered 0x0D25#16 w 0#32).inputs.cmdValid = true ∧ (offered 0x0D25#16 w 0#32).dueEvent = none ∧
      (offered 0x0D25#16 w 0#32).inputs.cmdDuration = 0#32) ∧
    legalChannel (chanField 0x2300#16) = true ∧ legalCommand (cmdField 0x2300#16) = true ∧
    legalChannel (chanField 0x3300#16) = false ∧ legalCommand (cmdField 0x2400#16) = false :=
  ⟨fun _ => ⟨rfl, rfl, rfl, rfl, rfl⟩, by decide⟩

theorem test_witness_OverrunIsLessThanOneFrame : 1 ≤ 47444 ∧ 47444 < 2 ^ 32 ∧ 47444 ∣ 47444 ∧
    1 ≤ 2 ^ 32 - 1 ∧ 2 ^ 32 - 1 < 2 ^ 32 := by decide

theorem test_witness_BusyStepIsALoopStep : checking.busy = true ∧ driving.busy = true ∧
    checking.inputs.rst = false ∧ checking.dueEvent = none := by decide

theorem test_witness_FaultEntryOnlyAtAHandshake :
    (offered 0x0D25#16 0x3000#16 0#32).phase ≠ .fault ∧ Inv (idleAt 0x0D25#16) ∧
    ∃ t, step (offered 0x0D25#16 0x3000#16 0#32) = .next t ∧ t.phase = .fault :=
  ⟨by decide, idle_inv, _, rfl, rfl⟩

theorem test_witness_FaultIsLeftByResetOnly :
    faulty.phase = .fault ∧ Inv faulty ∧ faulty.inputs.rst = false ∧ (∃ t, step faulty = .next t) ∧
    (let s := { faulty with inputs := { Inputs.quiet with rst := true } }
     s.phase = .fault ∧ s.inputs.rst = true) :=
  ⟨rfl, faulty_inv, rfl, ⟨_, rfl⟩, rfl, rfl⟩

theorem test_witness_WaitingChangesOnlyTime :
    (idleAt 0x0D25#16).busy = false ∧ (idleAt 0x0D25#16).inputs.rst = false ∧
    (idleAt 0x0D25#16).dueEvent = none ∧ (idleAt 0x0D25#16).handshake = none ∧
    (idleAt 0x0D25#16).host = [] ∧ Inv (idleAt 0x0D25#16) ∧
    (offered 0x0D25#16 0x0300#16 0#32).busy = false ∧
    (offered 0x0D25#16 0x0300#16 0#32).handshake ≠ none ∧
    ∃ t, step (offered 0x0D25#16 0x0300#16 0#32) = .next t :=
  ⟨rfl, rfl, rfl, rfl, rfl, idle_inv, rfl, by decide, _, rfl⟩

theorem test_witness_ResetHoldsTheBlock :
    (let s := { driving with inputs := { Inputs.quiet with rst := true } }
     s.inputs.rst = true ∧ s.inReset = false) ∧
    (let s := { State.reset with inputs := { Inputs.quiet with rst := true } }
     s.inputs.rst = true ∧ s.inReset = true ∧ ∃ t, step s = .next t) ∧
    faulty.inputs.rst = false ∧ faulty.phase = .fault ∧ ∃ t, step faulty = .next t :=
  ⟨⟨rfl, rfl⟩, ⟨rfl, rfl, _, rfl⟩, rfl, rfl, _, rfl⟩

/-- The first and the last instant at which a reset cuts entry 0 of a frame short. -/
theorem test_witness_ResetDuringAHoldAbandonsTheFrame :
    driving.phase = .drive ∧ driving.idx.toNat < driving.frameLen.toNat ∧
    driving.frame.read driving.idx = 840#16 ∧ driving.inputs.rst = false ∧
    driving.time < 1#64 ∧ (839#64).toNat < driving.time.toNat + (840#16).toNat := by decide

theorem test_witness_ReleaseOfResetClearsTheObservations :
    let s := { State.reset with
      inputs := { Inputs.quiet with rst := true }, host := [⟨.atTime 0#64, .quiet⟩],
      trace := [⟨low, 840#16⟩], starts := [0#64] }
    s.inputs.rst = true ∧ s.inReset = true ∧ s.dueEvent = some (.quiet, []) ∧
    Inputs.quiet.rst = false ∧
    (let u := { driving with inputs := { Inputs.quiet with rst := true } }
     u.inputs.rst = true ∧ u.inReset = false) := by decide

theorem test_witness_TimeNeverDecreases : ∃ t, step driving = .next t := ⟨_, rfl⟩

theorem test_witness_StepKeepsTheInvariant : Inv driving ∧ ∃ t, step driving = .next t :=
  ⟨driving_inv, _, rfl⟩

theorem test_witness_StepKeepsTheClocksRoom :
    Inv checking ∧ ClockRoom checking ∧ ∃ t, step checking = .next t :=
  ⟨checking_inv, checking_room, _, rfl⟩

theorem test_witness_AcceptedCommandNeverStops :
    Inv checking ∧ ClockRoom checking ∧ checking.busy = true :=
  ⟨checking_inv, checking_room, rfl⟩

theorem test_witness_NoFaultFromTheInvariant : Inv driving := driving_inv

/-- Two idle blocks that differ in the registers of the last command. -/
theorem test_witness_DormantStateIsUnobservable :
    SameLive (idleAt 0x0D25#16) { idleAt 0x0D25#16 with chan := 2#4, idx := 89#7, frameLen := 89#8 } :=
  ⟨rfl, rfl, rfl, rfl, rfl, rfl, rfl, rfl, rfl, rfl, fun _ => rfl, fun h => (nomatch h),
    fun h => (nomatch h), fun h => (nomatch h), fun h => (nomatch h)⟩

theorem test_witness_BusyBlockIgnoresItsPorts :
    driving.busy = true ∧ driving.inputs.rst = false ∧ driving.dueEvent = none ∧
    (Inputs.mk false true 1#16 true 0xFFFF#16 9#32).rst = false := by decide

theorem test_witness_OperandsAreHeldDuringACommand :
    driving.busy = true ∧ driving.inputs.rst = false ∧ ∃ t, step driving = .next t :=
  ⟨rfl, rfl, _, rfl⟩

theorem test_witness_OnlyAcceptanceWritesTheBuffer :
    ∃ t, step (offered 0x0D25#16 0x0300#16 0#32) = .next t ∧
      t.frame ≠ (offered 0x0D25#16 0x0300#16 0#32).frame := by
  refine ⟨_, rfl, ?_⟩
  intro h
  have := congrArg (fun m => Memory.written m 0#7) h
  revert this
  decide

theorem test_witness_TraceGrowsByEntryStepsOnly :
    driving.traceEnded ∧ Inv driving ∧ driving.inputs.rst = false ∧
    ∃ t, step driving = .next t ∧ driving.time.toNat < t.time.toNat :=
  ⟨⟨rfl, by decide⟩, driving_inv, rfl, _, rfl, by decide⟩

/-- The end of a run of one line, and of the empty program. -/
theorem test_witness_RunOverRestsLow :
    Inv (idleAt 0x0D25#16) ∧ (idleAt 0x0D25#16).runOver [.configure 0x0D25] = true ∧
    Inv State.reset ∧ State.reset.runOver [] = true ∧
    State.reset.loadProgram [] = some State.reset :=
  ⟨idle_inv, rfl, inv_of_resting _ rfl rfl rfl (by decide) (.inl rfl) (by decide) (by decide) rfl,
    rfl, rfl⟩

theorem test_witness_ChannelSelectorsAreOneToThree : 1 ≤ 1 ∧ 3 ≤ 3 ∧ 4 ≤ 4 := by decide

theorem test_witness_MillisecondFormsAreBaseCommands : 4294967 ≤ 4294967 ∧ 4294967 < 4294968 := by
  decide

theorem test_witness_AssembledWordsAreTheEncodings : 1 ≤ 3 ∧ 3 ≤ 3 ∧ 255 < 256 ∧
    2 ^ 32 - 1 < 2 ^ 32 := by decide

end Sys2Proof.Tests
end

section
/-! The state family (10_state.md): what the block's steps leave unchanged, the invariant of the machine,
the observations over a step. -/

namespace Sys2Proof.Machine

/-! ### What each kind of step leaves unchanged -/

/-- A step of the loop writes the driver's registers, the time and the observations only. -/
theorem loopStep_eq {tm : Config.Timing} {s t : State} (hb : s.busy = true)
    (h : loopStep tm s = .next t) :
    t = { s with
      phase := t.phase, idx := t.idx, level := t.level, txOut := t.txOut, time := t.time,
      trace := t.trace, starts := t.starts, frames := t.frames } := by
  rcases loopStep_cases hb h with ⟨-, h⟩ | ⟨-, h⟩
  · obtain ⟨-, ⟨-, rfl⟩ | ⟨-, rfl⟩⟩ := deadlineTest_cases h <;> rfl
  · rcases driveStep_cases h with ⟨-, h⟩ | ⟨-, rfl⟩
    · obtain ⟨e, -, ⟨_, -, rfl⟩ | ⟨-, -, rfl⟩⟩ := entryStep_cases h <;> rfl
    · rfl

theorem loopStep_frame_eq {tm : Config.Timing} {s t : State} (hb : s.busy = true)
    (h : loopStep tm s = .next t) : t.frame = s.frame := by
  rw [loopStep_eq hb h]

/-- A wait keeps the buffer, the pin and the observations (42_transmitter_session.md R209). -/
theorem waitStep_keeps {s t : State} (h : waitStep s = .next t) :
    t.frame = s.frame ∧ t.txOut = s.txOut ∧ t.trace = s.trace ∧ t.starts = s.starts := by
  obtain ⟨ht, -⟩ := waitStep_cases h
  rw [ht]
  exact ⟨rfl, rfl, rfl, rfl⟩

/-- An acceptance keeps the pin and the observed trace (42_transmitter_session.md R194). -/
theorem accept_keeps {tm : Config.Timing} {w : BitVec 16} {d : Duration} {s t : State}
    (h : accept tm w d s = .next t) :
    t.txOut = s.txOut ∧ t.trace = s.trace ∧ t.starts = s.starts := by
  obtain ⟨-, rfl⟩ | ⟨-, -, rfl⟩ | ⟨-, -, -, rfl⟩ := accept_cases h <;> exact ⟨rfl, rfl, rfl⟩

/-! ### Time -/

/-- An accepted launch lets `T_ENC` pass, for which the clock has room (42_transmitter_session.md R204). -/
theorem launch_time_toNat {tm : Config.Timing} {w : BitVec 16} {d : Duration} {s : State}
    (h : launchFits tm s.time d = true) :
    (s.launch tm w d).time.toNat = s.time.toNat + tm.tEnc := by
  rw [launchFits, decide_eq_true_iff] at h
  rw [launch_time, time_add_toNat (by omega)]

theorem accept_time_le {tm : Config.Timing} {w : BitVec 16} {d : Duration} {s t : State}
    (h : accept tm w d s = .next t) :
    s.time.toNat ≤ t.time.toNat ∧ t.time.toNat ≤ s.time.toNat + tm.tEnc := by
  obtain ⟨-, rfl⟩ | ⟨-, -, rfl⟩ | ⟨-, -, hfits, rfl⟩ := accept_cases h
  · simp
  · simp
  · rw [launch_time_toNat hfits]
    omega

theorem deadlineTest_time {tm : Config.Timing} {s t : State} (h : deadlineTest tm s = .next t) :
    t.time.toNat = s.time.toNat + tm.tChk := by
  obtain ⟨hroom, ⟨-, rfl⟩ | ⟨-, rfl⟩⟩ := deadlineTest_cases h <;> exact time_add_toNat hroom

/-- An entry step ends at its cut or at the end of the hold, never before it began
(41_pulse_driver.md R172). -/
theorem entryStep_time_le {tm : Config.Timing} {s t : State} (h : entryStep tm s = .next t) :
    s.time.toNat ≤ t.time.toNat := by
  obtain ⟨e, -, ⟨cut, hcut, rfl⟩ | ⟨-, hroom, rfl⟩⟩ := entryStep_cases h
  · exact (resetBefore_range hcut).1
  · exact (Nat.le_add_right _ _).trans_eq (time_add_toNat hroom).symm

theorem loopStep_time_le {tm : Config.Timing} {s t : State} (hb : s.busy = true)
    (h : loopStep tm s = .next t) : s.time.toNat ≤ t.time.toNat := by
  rcases loopStep_cases hb h with ⟨-, h⟩ | ⟨-, h⟩
  · rw [deadlineTest_time h]
    omega
  · rcases driveStep_cases h with ⟨-, h⟩ | ⟨-, rfl⟩
    · exact entryStep_time_le h
    · exact le_rfl

/-- Settles O44: each of the six kinds of step keeps the time or lets it pass. -/
theorem timeNeverDecreases : Obligations.TimeNeverDecreases := by
  intro s t h
  obtain ⟨-, -, rfl⟩ | ⟨p, rest, -, -, rfl⟩ | ⟨-, -, hb, h⟩ | ⟨-, -, -, -, rfl⟩ |
    ⟨-, -, -, -, h⟩ | ⟨-, -, -, -, h⟩ := step_cases h
  · exact le_rfl
  · exact le_rfl
  · exact loopStep_time_le hb h
  · exact le_rfl
  · exact (accept_time_le h).1
  · exact (waitStep_cases h).2

/-! ### The invariant -/

/-- A block in the reset state meets the invariant, if its buffer is canonical and its segments have
times. -/
theorem inv_of_inReset {s : State} (hr : s.inReset = true) (hf : s.frame.wf = true)
    (hs : s.starts.length = s.trace.length) : Inv s := by
  obtain ⟨hp, hi, -, hx, hc, hl⟩ := inReset_iff.mp hr
  exact {
    frameWf := hf
    pinLow := fun _ => hx
    levelParity := by simp [hp]
    idxBound := by simp [hp]
    idxRange := by simp [hi]
    lenRange := .inl hl
    causePhase := by simp [hp, hc]
    fresh := fun _ => hr
    startsMatch := hs
    loaded := by simp [busy_iff, hp] }

/-- The cause is NONE outside FAULT (10_state.md R43). -/
theorem Inv.cause_none {s : State} (h : Inv s) (hp : s.phase ≠ .fault) : s.faultCause = .none :=
  not_not.mp fun hc => hp (h.causePhase.mp hc)

/-- The invariant does not read the environment, nor the observations but for their lengths. -/
theorem Inv.of_environment {s t : State} (h : Inv s)
    (ht : t = { s with
      time := t.time, inputs := t.inputs, host := t.host, trace := t.trace, starts := t.starts,
      frames := t.frames, draws := t.draws })
    (hs : t.starts.length = t.trace.length) : Inv t := by
  rw [ht]
  exact { h with startsMatch := hs, loaded := fun hb => { h.loaded hb with } }

theorem inv_lower {s : State} (h : Inv s) (o : Offer) : Inv (s.lower o) := by
  cases o <;> exact h.of_environment rfl h.startsMatch

theorem inv_drivePorts {s : State} (h : Inv s) (p : Inputs) (rest : List HostEvent) :
    Inv (s.drivePorts p rest) := by
  refine h.of_environment rfl ?_
  rw [drivePorts_starts, drivePorts_trace]
  split
  · rfl
  · exact h.startsMatch

theorem inv_waitStep {s t : State} (h : Inv s) (hw : waitStep s = .next t) : Inv t := by
  obtain ⟨ht, -⟩ := waitStep_cases hw
  rw [ht]
  exact h.of_environment rfl h.startsMatch

/-- Taking an id leaves the invariant: an unconfigured block is in the reset state. -/
theorem inv_configured {s : State} (h : Inv s) (hp : s.phase = .unconfigured) (id : BitVec 16) :
    Inv { s with deviceId := id, phase := .idle } :=
  { h with
    pinLow := fun _ => h.pinLow (by simp [hp])
    levelParity := nofun
    idxBound := nofun
    causePhase := by simp [h.cause_none (by simp [hp])]
    fresh := nofun
    loaded := nofun }

theorem inv_takeFault {s : State} (h : Inv s) (hp : s.phase = .idle) {c : FaultCause}
    (hc : c ≠ .none) : Inv (s.takeFault c) :=
  { h with
    pinLow := fun _ => h.pinLow (by simp [hp])
    levelParity := nofun
    idxBound := nofun
    causePhase := by simp [hc]
    fresh := nofun
    loaded := nofun }

/-- The launch of a legal word leaves the frame of its operands in the buffer
(42_transmitter_session.md R194). -/
theorem inv_launch {s : State} (h : Inv s) (hp : s.phase = .idle) {tm : Config.Timing}
    {w : BitVec 16} {d : Duration} (hc : legalChannel (chanField w) = true)
    (hk : legalCommand (cmdField w) = true) : Inv (s.launch tm w d) where
  frameWf := by
    rw [launch_frame]
    exact Memory.writeFrom_wf _ _ _ h.frameWf
  pinLow _ := h.pinLow (by simp [hp])
  levelParity := nofun
  idxBound := nofun
  idxRange := h.idxRange
  lenRange := .inr (launch_frameLen s tm w d)
  causePhase := by simp [h.cause_none (by simp [hp])]
  fresh := nofun
  startsMatch := h.startsMatch
  loaded _ := launch_loaded hc hk

theorem inv_accept {s t : State} (h : Inv s) (hp : s.phase = .idle) {tm : Config.Timing}
    {w : BitVec 16} {d : Duration} (ha : accept tm w d s = .next t) : Inv t := by
  obtain ⟨-, rfl⟩ | ⟨-, -, rfl⟩ | ⟨hc, hk, -, rfl⟩ := accept_cases ha
  · exact inv_takeFault h hp nofun
  · exact inv_takeFault h hp nofun
  · exact inv_launch h hp hc hk

/-- The deadline test begins a frame at entry 0, played low, or ends the command
(42_transmitter_session.md R198). -/
theorem inv_deadlineTest {s t : State} (h : Inv s) (hp : s.phase = .check) {tm : Config.Timing}
    (hd : deadlineTest tm s = .next t) : Inv t := by
  have hlow := h.pinLow (by simp [hp])
  have hnone := h.cause_none (by simp [hp])
  have hl := h.loaded (busy_iff.mpr (.inl hp))
  obtain ⟨-, ⟨-, rfl⟩ | ⟨-, rfl⟩⟩ := deadlineTest_cases hd
  · exact { h with
      pinLow := fun _ => hlow
      levelParity := fun _ => rfl
      idxBound := fun _ => Nat.zero_le _
      idxRange := Nat.zero_le _
      causePhase := by simp [hnone]
      fresh := nofun
      loaded := fun _ => { hl with } }
  · exact { h with
      pinLow := fun _ => hlow
      levelParity := nofun
      idxBound := nofun
      causePhase := by simp [hnone]
      fresh := nofun
      loaded := nofun }

theorem idx_succ_toNat {i : EntryIndex} (h : i.toNat < 89) : (i + 1#7).toNat = i.toNat + 1 := by
  rw [BitVec.toNat_add, BitVec.toNat_ofNat]
  omega

/-- An entry step moves `LEVEL` and `IDX` together, or a reset cuts it before they move
(41_pulse_driver.md R172, R174). -/
theorem inv_entryStep {s t : State} (h : Inv s) (hp : s.phase = .drive)
    (hlt : s.idx.toNat < s.frameLen.toNat) {tm : Config.Timing} (he : entryStep tm s = .next t) :
    Inv t := by
  have hl := h.loaded (busy_iff.mpr (.inr hp))
  have hlen : s.frameLen.toNat = 89 := congrArg BitVec.toNat hl.lengthIs89
  have hsucc := idx_succ_toNat (hlen ▸ hlt)
  obtain ⟨e, -, ⟨cut, -, rfl⟩ | ⟨-, -, rfl⟩⟩ := entryStep_cases he
  · exact { h with
      pinLow := fun hn => absurd hp hn
      fresh := by simp [hp]
      startsMatch := by simp [h.startsMatch]
      loaded := fun _ => { hl with } }
  · exact { h with
      pinLow := fun hn => absurd hp hn
      fresh := by simp [hp]
      levelParity := fun _ => by
        dsimp only
        rw [h.levelParity hp, hsucc, ← decide_not, decide_eq_decide]
        omega
      idxBound := fun _ => by
        dsimp only
        omega
      idxRange := by
        dsimp only
        omega
      startsMatch := by simp [h.startsMatch]
      loaded := fun _ => { hl with } }

theorem inv_frameEndStep {s : State} (h : Inv s) (hp : s.phase = .drive) : Inv (frameEndStep s) :=
  { h with
    pinLow := fun _ => rfl
    levelParity := nofun
    idxBound := nofun
    causePhase := by simp [h.cause_none (by simp [hp])]
    fresh := nofun
    loaded := fun _ => { h.loaded (busy_iff.mpr (.inr hp)) with } }

theorem inv_loopStep {s t : State} (h : Inv s) (hb : s.busy = true) {tm : Config.Timing}
    (hl : loopStep tm s = .next t) : Inv t := by
  rcases loopStep_cases hb hl with ⟨hp, hd⟩ | ⟨hp, hd⟩
  · exact inv_deadlineTest h hp hd
  · rcases driveStep_cases hd with ⟨hlt, he⟩ | ⟨-, rfl⟩
    · exact inv_entryStep h hp hlt he
    · exact inv_frameEndStep h hp

/-- Settles O48: each of the six kinds of step keeps the invariant. -/
theorem stepKeepsTheInvariant : Obligations.StepKeepsTheInvariant := by
  intro s t hi h
  obtain ⟨-, -, rfl⟩ | ⟨p, rest, -, -, rfl⟩ | ⟨-, -, hb, h⟩ | ⟨-, -, hp, -, rfl⟩ |
    ⟨-, -, hp, -, h⟩ | ⟨-, -, -, -, h⟩ := step_cases h
  · exact inv_of_inReset (resetStep_inReset s) rfl hi.startsMatch
  · exact inv_drivePorts hi p rest
  · exact inv_loopStep hi hb h
  · exact inv_configured (inv_lower hi (.config s.inputs.cfgId)) hp s.inputs.cfgId
  · exact inv_accept (inv_lower hi (.command s.inputs.cmdWord s.inputs.cmdDuration)) hp h
  · exact inv_waitStep hi h

/-- Settles O47: the state after reset is in the reset state, with an empty buffer and no segments. -/
theorem resetMeetsTheInvariant : Obligations.ResetMeetsTheInvariant :=
  inv_of_inReset rfl Memory.reset_wf rfl

/-! ### The frame buffer -/

/-- Settles O55: of the six kinds of step, the reset and the launch alone write the buffer. -/
theorem onlyAcceptanceWritesTheBuffer : Obligations.OnlyAcceptanceWritesTheBuffer := by
  intro s t h hne
  obtain ⟨hr, -, rfl⟩ | ⟨p, rest, -, -, rfl⟩ | ⟨-, -, hb, h⟩ | ⟨-, -, -, -, rfl⟩ |
    ⟨-, -, hp, hv, h⟩ | ⟨-, -, -, -, h⟩ := step_cases h
  · exact .inl ⟨hr, rfl⟩
  · exact absurd rfl hne
  · exact absurd (loopStep_frame_eq hb h) hne
  · exact absurd rfl hne
  · obtain ⟨-, rfl⟩ | ⟨-, -, rfl⟩ | ⟨-, -, -, rfl⟩ := accept_cases h
    · exact absurd rfl hne
    · exact absurd rfl hne
    · exact .inr ⟨hp, hv, rfl⟩
  · exact absurd (waitStep_keeps h).1 hne

/-! ### The observations -/

/-- The step keeps the observed trace, and the pin is low if it takes time. -/
structure KeepsTrace (s t : State) : Prop where
  trace : t.trace = s.trace
  starts : t.starts = s.starts
  time_le : s.time.toNat ≤ t.time.toNat
  pinLow : Inv s → s.time.toNat < t.time.toNat → t.txOut = low

/-- The step plays the entry at `IDX`, whole or up to a reset (41_pulse_driver.md R172). -/
structure PlaysEntry (s t : State) : Prop where
  phase : s.phase = .drive
  idx_lt : s.idx.toNat < s.frameLen.toNat
  trace : t.trace = s.trace ++ [⟨s.level, s.frame.read s.idx⟩]
  starts : t.starts = s.starts ++ [s.time]
  txOut : t.txOut = s.level
  time_le : s.time.toNat ≤ t.time.toNat
  ends : t.time.toNat = s.time.toNat + (s.frame.read s.idx).toNat ∨
    t.time.toNat < s.time.toNat + (s.frame.read s.idx).toNat ∧ t.resetPending = true

/-- The step lowers `rst`, which empties the observed trace in no time (log 12). -/
structure ReleasesReset (s t : State) : Prop where
  rstHigh : s.inputs.rst = true
  rstFalls : t.inputs.rst = false
  trace : t.trace = []
  starts : t.starts = []
  time : t.time = s.time

theorem later_eq_left {a b : Ticks} (h : b.toNat ≤ a.toNat) : later a b = a := by
  unfold later
  split
  next hle => exact BitVec.eq_of_toNat_eq (le_antisymm h hle)
  next => rfl

theorem le_later_right (a b : Ticks) : b.toNat ≤ (later a b).toNat := by
  unfold later
  split
  next => exact le_rfl
  next hlt => exact (BitVec.not_le.mp hlt).le

/-- At the time of the host's next reset, that reset is the next one still. -/
theorem resetBefore_at_reset {bound : Nat} {now r : Ticks} {l : List HostEvent}
    (h : resetBefore bound now l = some r) : resetBefore (r.toNat + 1) r l = some r := by
  induction l generalizing now with
  | nil => simp [resetBefore] at h
  | cons e rest ih =>
    obtain ⟨m, p⟩ := e
    cases m with
    | whenFree d => simp [resetBefore] at h
    | atTime t =>
      have ht := le_later_right now t
      rw [resetBefore] at h
      split at h
      · split at h
        next hp =>
          cases h
          simp [resetBefore, later_eq_left ht, hp]
        next hp =>
          have hr := resetBefore_range h
          simp [resetBefore, later_eq_left (ht.trans hr.1), ih h, hp]
      · cases h

theorem playsEntry_of_entryStep {s t : State} (hp : s.phase = .drive)
    (hlt : s.idx.toNat < s.frameLen.toNat) (h : entryStep Config.taken s = .next t) :
    PlaysEntry s t := by
  have htime := entryStep_time_le h
  obtain ⟨e, rfl, ⟨cut, hcut, rfl⟩ | ⟨-, hroom, rfl⟩⟩ := entryStep_cases h
  · have hpending := resetBefore_at_reset hcut
    exact ⟨hp, hlt, rfl, rfl, rfl, htime, .inr ⟨(resetBefore_range hcut).2, by
      simp [State.resetPending, hpending]⟩⟩
  · exact ⟨hp, hlt, rfl, rfl, rfl, htime, .inl (time_add_toNat hroom)⟩

theorem keepsTrace_of_time_eq {s t : State} (htrace : t.trace = s.trace)
    (hstarts : t.starts = s.starts) (htime : t.time.toNat = s.time.toNat) : KeepsTrace s t :=
  ⟨htrace, hstarts, htime.ge, fun _ hlt => absurd htime hlt.ne'⟩

/-- A wait shows a low pin, since the block is not in DRIVE (10_state.md R42). -/
theorem keepsTrace_of_waitStep {s t : State} (hb : s.busy = false) (h : waitStep s = .next t) :
    KeepsTrace s t := by
  obtain ⟨-, htx, htrace, hstarts⟩ := waitStep_keeps h
  refine ⟨htrace, hstarts, (waitStep_cases h).2, fun hi _ => htx.trans (hi.pinLow fun hp => ?_)⟩
  exact Bool.false_ne_true (hb.symm.trans (busy_iff.mpr (.inr hp)))

/-- The deadline test and the frame end keep the trace, an entry step plays its entry. -/
theorem loopStep_trace_cases {s t : State} (hb : s.busy = true)
    (h : loopStep Config.taken s = .next t) : KeepsTrace s t ∨ PlaysEntry s t := by
  rcases loopStep_cases hb h with ⟨-, hd⟩ | ⟨hp, hd⟩
  · obtain ⟨-, ⟨-, rfl⟩ | ⟨-, rfl⟩⟩ := deadlineTest_cases hd <;>
      exact .inl (keepsTrace_of_time_eq rfl rfl (deadlineTest_time hd))
  · rcases driveStep_cases hd with ⟨hlt, he⟩ | ⟨-, rfl⟩
    · exact .inr (playsEntry_of_entryStep hp hlt he)
    · exact .inl (keepsTrace_of_time_eq rfl rfl rfl)

/-- The host's port change keeps the trace but where it lowers `rst` (log 12). -/
theorem drivePorts_trace_cases (s : State) (p : Inputs) (rest : List HostEvent) :
    KeepsTrace s (s.drivePorts p rest) ∨ ReleasesReset s (s.drivePorts p rest) := by
  by_cases hfall : (s.inputs.rst && !p.rst) = true
  · have ⟨hr, hp⟩ : s.inputs.rst = true ∧ p.rst = false := by simpa using hfall
    exact .inr ⟨hr, hp, by simp [hfall], by simp [hfall], rfl⟩
  · exact .inl (keepsTrace_of_time_eq (by simp [hfall]) (by simp [hfall]) rfl)

/-- What a step does to the observed trace. -/
theorem step_trace_cases {s t : State} (h : step s = .next t) :
    KeepsTrace s t ∨ PlaysEntry s t ∨ ReleasesReset s t := by
  obtain ⟨-, -, rfl⟩ | ⟨p, rest, -, -, rfl⟩ | ⟨-, -, hb, h⟩ | ⟨-, -, -, -, rfl⟩ |
    ⟨-, -, -, -, h⟩ | ⟨-, -, hb, -, h⟩ := step_cases h
  · exact .inl (keepsTrace_of_time_eq rfl rfl rfl)
  · exact (drivePorts_trace_cases s p rest).imp_right .inr
  · exact (loopStep_trace_cases hb h).imp_right .inl
  · exact .inl (keepsTrace_of_time_eq rfl rfl rfl)
  · obtain ⟨-, htrace, hstarts⟩ := accept_keeps h
    obtain ⟨hge, hle⟩ := accept_time_le h
    exact .inl (keepsTrace_of_time_eq htrace hstarts (le_antisymm hle hge))
  · exact .inl (keepsTrace_of_waitStep hb h)

/-- From `s` to `t` the pin shows the waveform of `TRACE`, whose past stays as it is but at the release of
reset, and a segment that has not run its time is about to be cut (10_state.md R52,
70_reset_and_hazards.md R292). -/
def PinShowsWaveform (s t : State) : Prop :=
  (Inv s → ∀ x, s.time.toNat ≤ x → x < t.time.toNat → t.waveform x = t.txOut) ∧
  (s.inputs.rst = false ∨ t.inputs.rst = true →
    ∀ x, x < s.time.toNat → t.waveform x = s.waveform x) ∧
  (t.traceEnded ∨ s.phase = .drive ∧ t.resetPending = true)

theorem KeepsTrace.waveform_eq {s t : State} (h : KeepsTrace s t) (x : Nat) :
    t.waveform x = s.waveform x := by rw [State.waveform, State.waveform, h.starts, h.trace]

theorem KeepsTrace.traceEnded {s t : State} (h : KeepsTrace s t) (he : s.traceEnded) :
    t.traceEnded := by
  rw [State.traceEnded, h.starts, h.trace]
  exact ⟨he.1, fun p hp => (he.2 p hp).trans h.time_le⟩

theorem KeepsTrace.pinShowsWaveform {s t : State} (h : KeepsTrace s t) (he : s.traceEnded) :
    PinShowsWaveform s t := by
  refine ⟨fun hi x hx hxt => ?_, fun _ x _ => h.waveform_eq x, .inl (h.traceEnded he)⟩
  rw [h.waveform_eq, waveform_of_traceEnded he hx, h.pinLow hi (hx.trans_lt hxt)]

/-- The timed segments after an entry step: the entry's own is the last one. -/
theorem PlaysEntry.zip_eq {s t : State} (h : PlaysEntry s t)
    (hlen : s.starts.length = s.trace.length) :
    t.starts.zip t.trace =
      s.starts.zip s.trace ++ [(s.time, ⟨s.level, s.frame.read s.idx⟩)] := by
  rw [h.starts, h.trace, List.zip_append hlen]
  rfl

/-- While the entry is played the waveform is its level. -/
theorem PlaysEntry.waveform_during {s t : State} (h : PlaysEntry s t) (he : s.traceEnded) {x : Nat}
    (hx : s.time.toNat ≤ x) (hxt : x < t.time.toNat) : t.waveform x = s.level := by
  have hlast : lastsAt x (s.time, ⟨s.level, s.frame.read s.idx⟩) = true := by
    rw [lastsAt_iff]
    have := h.ends
    dsimp only
    omega
  rw [State.waveform, h.zip_eq he.1, waveform_append_right _ (lastsAt_of_traceEnded he hx),
    waveform_cons, if_pos hlast]

/-- The entry does not change the waveform before it begins. -/
theorem PlaysEntry.waveform_before {s t : State} (h : PlaysEntry s t)
    (hlen : s.starts.length = s.trace.length) {x : Nat} (hx : x < s.time.toNat) :
    t.waveform x = s.waveform x := by
  rw [State.waveform, h.zip_eq hlen, State.waveform]
  apply waveform_append_left
  intro p hp
  rw [List.mem_singleton] at hp
  rw [Bool.eq_false_iff, ne_eq, lastsAt_iff, hp]
  dsimp only
  omega

/-- An entry played to its end leaves every segment ended. -/
theorem PlaysEntry.traceEnded {s t : State} (h : PlaysEntry s t) (he : s.traceEnded)
    (htime : t.time.toNat = s.time.toNat + (s.frame.read s.idx).toNat) : t.traceEnded := by
  obtain ⟨hlen, hend⟩ := he
  refine ⟨by rw [h.starts, h.trace, List.length_append, List.length_append, hlen]; rfl, ?_⟩
  rw [h.zip_eq hlen]
  intro p hp
  rcases List.mem_append.mp hp with hp | hp
  · exact (hend p hp).trans h.time_le
  · rw [List.mem_singleton.mp hp]
    exact htime.ge

theorem PlaysEntry.pinShowsWaveform {s t : State} (h : PlaysEntry s t) (he : s.traceEnded) :
    PinShowsWaveform s t := by
  refine ⟨fun _ x hx hxt => ?_, fun _ x hx => h.waveform_before he.1 hx, ?_⟩
  · rw [h.waveform_during he hx hxt, h.txOut]
  · exact h.ends.imp (h.traceEnded he) fun hcut => ⟨h.phase, hcut.2⟩

/-- The release of reset takes no time and leaves no segment. -/
theorem ReleasesReset.pinShowsWaveform {s t : State} (h : ReleasesReset s t) :
    PinShowsWaveform s t := by
  refine ⟨fun _ x hx hxt => ?_, fun hno => ?_, .inl ?_⟩
  · rw [h.time] at hxt
    omega
  · rw [h.rstHigh, h.rstFalls] at hno
    simp at hno
  · simp [State.traceEnded, h.starts, h.trace]

/-- Settles O56: a step keeps the trace, plays an entry or releases reset, and in each case the pin shows
the waveform. -/
theorem traceGrowsByEntryStepsOnly : Obligations.TraceGrowsByEntryStepsOnly := by
  intro s t h
  obtain hk | hp | hr := step_trace_cases h
  · exact ⟨.inl ⟨hk.trace, hk.starts⟩, hk.pinShowsWaveform⟩
  · exact ⟨.inr (.inl ⟨hp.phase, hp.idx_lt, hp.trace, hp.starts⟩), hp.pinShowsWaveform⟩
  · exact ⟨.inr (.inr ⟨hr.rstHigh, hr.rstFalls, hr.trace, hr.starts⟩), fun _ => hr.pinShowsWaveform⟩

/-- Settles O43: the port change that lowers `rst` empties the observations, the reset step keeps them. -/
theorem releaseOfResetClearsTheObservations : Obligations.ReleaseOfResetClearsTheObservations := by
  refine ⟨fun s p rest hr hi hd hp => ?_, fun s hr hn => ?_⟩
  · rw [step_portChange (fun _ => hi) hd, State.drivePorts, hr, hp]
    rfl
  · exact ⟨_, step_reset hr hn, rfl, rfl, rfl⟩

/-! ### The status outputs -/

theorem configured_iff {s : State} : s.configured = true ↔ s.phase ≠ .unconfigured := by
  simp [State.configured]

theorem faulted_iff {s : State} : s.faulted = true ↔ s.phase = .fault := by simp [State.faulted]

theorem txOutPort_toNat (s : State) : s.txOutPort.toNat = s.txOut.toNat :=
  BitVec.toNat_ofBool s.txOut

/-- Settles O45: one equivalence per output. -/
theorem statusFollowsThePhase : Obligations.StatusFollowsThePhase := fun s =>
  ⟨configured_iff, cfgReady_iff, cmdReady_iff, busy_iff, faulted_iff, txOutPort_toNat s, rfl⟩

/-- Settles O46: each value is read off the state after reset. -/
theorem resetLeavesTheStatedValues : Obligations.ResetLeavesTheStatedValues :=
  ⟨rfl, rfl, rfl, rfl, rfl, rfl, rfl, rfl, rfl, rfl, rfl, rfl, rfl, rfl⟩

end Sys2Proof.Machine
end

section
/-! The memory family (20_memory.md): what is not written while a command is in progress. -/

namespace Sys2Proof.Machine

/-- What a step can do while a command is in progress and `rst` is 0: the host changes its ports, or the
loop takes a step (42_transmitter_session.md R210). -/
theorem step_cases_of_busy {s t : State} (hb : s.busy = true) (hr : s.inputs.rst = false)
    (h : step s = .next t) :
    (∃ p rest, s.dueEvent = some (p, rest) ∧ t = s.drivePorts p rest) ∨
    (s.dueEvent = none ∧ loopStep Config.taken s = .next t) := by
  cases hd : s.dueEvent with
  | some event =>
    rw [step_portChange (by simp [hr]) hd] at h
    cases h
    exact .inl ⟨_, _, rfl, rfl⟩
  | none =>
    rw [step_loop hb hr hd] at h
    exact .inr ⟨rfl, h⟩

/-- Settles O54: a port change writes no register, and a step of the loop only those of the driver. -/
theorem operandsAreHeldDuringACommand : Obligations.OperandsAreHeldDuringACommand := by
  intro s t hb hr h
  obtain ⟨p, rest, -, rfl⟩ | ⟨-, hl⟩ := step_cases_of_busy hb hr h
  · exact ⟨rfl, rfl, rfl, rfl, rfl, rfl, rfl, rfl, rfl⟩
  · rw [loopStep_eq hb hl]
    exact ⟨rfl, rfl, rfl, rfl, rfl, rfl, rfl, rfl, rfl⟩

end Sys2Proof.Machine
end

section
/-! The encoding family (30_encoding.md): the codec of the command word, the operands of the assembler,
one frame on the pin. -/

namespace Sys2Proof

/-! ### The word and its fields -/

/-- A word is made of its fields (30_encoding.md R101). -/
@[simp] theorem commandWord_fields (w : BitVec 16) :
    commandWord (chanField w) (cmdField w) (strengthField w) = w := by
  apply BitVec.eq_of_toNat_eq
  rw [commandWord_toNat, chanField_toNat, cmdField_toNat, strengthField_toNat]
  omega

/-- The mask `0xFF00` clears the strength field and keeps the others. -/
theorem and_strengthMask (w : BitVec 16) :
    w &&& 0xFF00#16 = commandWord (chanField w) (cmdField w) 0#8 := by
  calc w &&& 0xFF00#16
      = (chanField w ++ cmdField w ++ strengthField w) &&& (0xF#4 ++ 0xF#4 ++ 0#8) :=
        congrArg (· &&& 0xFF00#16) (commandWord_fields w).symm
    _ = (chanField w &&& BitVec.allOnes 4) ++ (cmdField w &&& BitVec.allOnes 4) ++
          (strengthField w &&& 0#8) := by rw [BitVec.and_append, BitVec.and_append]; rfl
    _ = commandWord (chanField w) (cmdField w) 0#8 := by
        rw [BitVec.and_allOnes, BitVec.and_allOnes, BitVec.and_zero, commandWord]

/-- Words that agree above bit 7 have the same channel and the same command. -/
theorem fields_eq_of_div_eq {w v : BitVec 16} (h : w.toNat / 256 = v.toNat / 256) :
    chanField w = chanField v ∧ cmdField w = cmdField v := by
  constructor <;> apply BitVec.eq_of_toNat_eq
  · rw [chanField_toNat, chanField_toNat]
    omega
  · rw [cmdField_toNat, cmdField_toNat, h]

/-! ### The rows of the opcode map -/

section Rows
variable {w : BitVec 16} (d : Duration) (hc : legalChannel (chanField w) = true)
include hc

theorem decodeCommand_of_shock (hk : cmdField w = 1#4) :
    decodeCommand w d = .legal (.shock (chanField w) (strengthField w) d) := by
  rw [decodeCommand, if_pos hc, if_pos hk]

theorem decodeCommand_of_vibrate (hk : cmdField w = 2#4) :
    decodeCommand w d = .legal (.vibrate (chanField w) (strengthField w) d) := by
  rw [decodeCommand, if_pos hc, if_neg (by rw [hk]; decide), if_pos hk]

theorem decodeCommand_of_beep (hk : cmdField w = 3#4) :
    decodeCommand w d = .legal (.beep (chanField w) d) := by
  rw [decodeCommand, if_pos hc, if_neg (by rw [hk]; decide), if_neg (by rw [hk]; decide), if_pos hk]

end Rows

/-- Settles O3: each clause is a row of the map, its premises read as the fields' values. -/
theorem decodingFollowsTheOpcodeMap : Obligations.DecodingFollowsTheOpcodeMap := by
  intro w d
  have hcmd : ∀ k : BitVec 4, w.toNat / 256 % 16 = k.toNat → cmdField w = k := fun k h =>
    BitVec.eq_of_toNat_eq ((cmdField_toNat w).trans h)
  have hchan : BitVec.ofNat 4 (w.toNat / 4096) = chanField w := by
    rw [← chanField_toNat, BitVec.ofNat_toNat, BitVec.setWidth_eq]
  have hstrength : BitVec.ofNat 8 (w.toNat % 256) = strengthField w := by
    rw [← strengthField_toNat, BitVec.ofNat_toNat, BitVec.setWidth_eq]
  rw [hchan, hstrength, ← chanField_toNat, ← legalChannel_false_iff, ← legalChannel_iff]
  refine ⟨decodeCommand_of_illegalChannel d, fun hc => ⟨fun h => ?_, fun h => ?_, fun h => ?_,
    fun h => ?_⟩, fun _ => rfl⟩
  · exact decodeCommand_of_shock d hc (hcmd 1#4 h)
  · exact decodeCommand_of_vibrate d hc (hcmd 2#4 h)
  · exact decodeCommand_of_beep d hc (hcmd 3#4 h)
  · rw [← cmdField_toNat, ← legalCommand_false_iff] at h
    exact decodeCommand_of_illegalCommand d hc h

/-- Settles O4: the decoder runs on each of the words. -/
theorem sampleWordsDecode : Obligations.SampleWordsDecode := by
  unfold Obligations.SampleWordsDecode
  decide

/-! ### The round trips -/

/-- Only well-formed instructions are decoded. -/
theorem wf_of_decodeOffer {o : Offer} {i : Instr} (h : decodeOffer o = .legal i) : i.wf = true := by
  cases o with
  | command w d => obtain ⟨hc, ⟨-, rfl⟩ | ⟨-, rfl⟩ | ⟨-, rfl⟩⟩ := decodeCommand_legal h <;> exact hc
  | config id => cases h; rfl

/-- Settles O2: by the command field, the word being made of its fields. -/
theorem encodeDecodeRoundTrip : Obligations.EncodeDecodeRoundTrip := by
  intro w d i h
  refine ⟨wf_of_decodeOffer h, ?_⟩
  obtain ⟨-, ⟨hk, rfl⟩ | ⟨hk, rfl⟩ | ⟨hk, rfl⟩⟩ := decodeCommand_legal h
  · rw [if_neg (by rw [hk]; decide), encode, ← hk, commandWord_fields]
  · rw [if_neg (by rw [hk]; decide), encode, ← hk, commandWord_fields]
  · rw [if_pos hk, encode, ← hk, and_strengthMask]

theorem decodeOffer_encode {i : Instr} (h : i.wf = true) : decodeOffer (encode i) = .legal i := by
  cases i with
  | shock chan strength d =>
    rw [encode, decodeOffer, decodeCommand_of_shock d (by rwa [chanField_commandWord])
      (cmdField_commandWord ..), chanField_commandWord, strengthField_commandWord]
  | vibrate chan strength d =>
    rw [encode, decodeOffer, decodeCommand_of_vibrate d (by rwa [chanField_commandWord])
      (cmdField_commandWord ..), chanField_commandWord, strengthField_commandWord]
  | beep chan d =>
    rw [encode, decodeOffer, decodeCommand_of_beep d (by rwa [chanField_commandWord])
      (cmdField_commandWord ..), chanField_commandWord]
  | configure id => rfl

/-- A legal offer is its instruction's encoding, or a BEEP word with some strength. -/
theorem offer_of_decodeOffer {o : Offer} {i : Instr} (h : decodeOffer o = .legal i) :
    o = encode i ∨
      ∃ chan strength d, i = .beep chan d ∧ o = .command (commandWord chan 3#4 strength) d := by
  cases o with
  | config id => cases h; exact .inl rfl
  | command w d =>
    obtain ⟨-, hencode⟩ := encodeDecodeRoundTrip w d i h
    obtain ⟨-, ⟨hk, -⟩ | ⟨hk, -⟩ | ⟨hk, hi⟩⟩ := decodeCommand_legal h
    · rw [hencode, if_neg (by rw [hk]; decide)]
      exact .inl rfl
    · rw [hencode, if_neg (by rw [hk]; decide)]
      exact .inl rfl
    · refine .inr ⟨chanField w, strengthField w, d, hi, ?_⟩
      rw [← hk, commandWord_fields]

/-- Settles O1: decoding inverts the encoder, and what decodes to an instruction is its encoding up to
a BEEP's strength. -/
theorem decodeEncodeRoundTrip : Obligations.DecodeEncodeRoundTrip :=
  ⟨fun _ hwf => decodeOffer_encode hwf, fun _ _ h => ⟨wf_of_decodeOffer h, offer_of_decodeOffer h⟩⟩

/-! ### The strength field of a BEEP -/

/-- BEEP words of one channel decode alike. -/
theorem decodeCommand_beep_congr {w v : BitVec 16} (d : Duration) (hk : cmdField w = 3#4)
    (hchan : chanField w = chanField v) (hcmd : cmdField w = cmdField v) :
    decodeCommand w d = decodeCommand v d := by
  cases hc : legalChannel (chanField w) with
  | true =>
    rw [decodeCommand_of_beep d hc hk, hchan,
      decodeCommand_of_beep d (hchan ▸ hc) (hcmd ▸ hk)]
  | false =>
    rw [decodeCommand_of_illegalChannel d hc, decodeCommand_of_illegalChannel d (hchan ▸ hc)]

end Sys2Proof

namespace Sys2Proof.Machine

theorem effectiveStrength_beep {w : BitVec 16} (hk : cmdField w = 3#4) :
    effectiveStrength w = 0#8 := if_pos hk

/-- BEEP words of one channel have the same effect. -/
theorem offerCommand_beep_congr {w v : BitVec 16} (d : Duration) (s : State)
    (hk : cmdField w = 3#4) (hchan : chanField w = chanField v) (hcmd : cmdField w = cmdField v) :
    offerCommand w d s = offerCommand v d s :=
  offerCommand_congr hchan hcmd
    ((effectiveStrength_beep hk).trans (effectiveStrength_beep (hcmd ▸ hk)).symm)

/-- Settles O5: neither the decoder nor an acceptance reads the strength field of a BEEP word. -/
theorem beepIgnoresItsStrengthField : Obligations.BeepIgnoresItsStrengthField := by
  intro w v d s hk hdiv
  obtain ⟨hchan, hcmd⟩ := fields_eq_of_div_eq hdiv
  refine ⟨decodeCommand_beep_congr d hk hchan hcmd, offerCommand_beep_congr d s hk hchan hcmd, ?_,
    fun hc => decodeCommand_of_beep d hc hk, effectiveStrength_beep hk⟩
  rw [and_strengthMask]
  exact offerCommand_beep_congr d s hk (chanField_commandWord ..).symm
    (cmdField_commandWord ..).symm

/-! ### The payload -/

/-- The payload holds the command word between the id and the checksum (30_encoding.md R106). -/
theorem payload_eq (id : BitVec 16) (chan cmd : BitVec 4) (str : BitVec 8) :
    payload id chan cmd str =
      id ++ commandWord chan cmd str ++ checksum id chan cmd str ++ 0#2 := by
  have h : id ++ chan ++ cmd ++ str = id ++ (chan ++ cmd ++ str) := by
    rw [BitVec.append_assoc, BitVec.append_assoc, BitVec.append_assoc (x₁ := chan)]
    rfl
  rw [payload, h, commandWord]

/-- Settles O6: the bits above the checksum and below the id are the word made of its fields. -/
theorem commandWordIsPayloadBits : Obligations.CommandWordIsPayloadBits := by
  intro id w
  rw [payload_eq, commandWord_fields, BitVec.extractLsb'_append_eq_of_le (by decide),
    BitVec.extractLsb'_append_eq_of_le (by decide)]
  exact BitVec.extractLsb'_append_eq_right

/-! ### The operands of the assembler -/

theorem channelCode_of_channel {n : Nat} (h1 : 1 ≤ n) (h3 : n ≤ 3) :
    channelCode n = some (BitVec.ofNat 4 (n - 1)) := if_pos ⟨h1, h3⟩

theorem channelCode_of_not_channel {n : Nat} (h : n = 0 ∨ 4 ≤ n) : channelCode n = none := by
  refine if_neg ?_
  rw [Config.channelSelBase]
  omega

/-- Settles O58: the two branches of the range test. -/
theorem channelSelectorsAreOneToThree : Obligations.ChannelSelectorsAreOneToThree := by
  refine fun n => ⟨fun h1 h3 => ⟨_, channelCode_of_channel h1 h3, ?_⟩, channelCode_of_not_channel⟩
  rw [BitVec.toNat_ofNat]
  omega

/-- Up to `MS_MAX` a millisecond operand is the operand of 1000 times as many ticks, which fits
(43_commands.md R227). -/
theorem msDuration_of_le {ms : Nat} (h : ms ≤ 4294967) :
    msDuration ms = operand 32 (ms * 1000) := by
  rw [msDuration, Config.msMax, if_pos h, operand, if_pos (by omega), Config.msTicks]

theorem msDuration_of_lt {ms : Nat} (h : 4294967 < ms) : msDuration ms = none :=
  if_neg (Nat.not_le.mpr h)

/-- Settles O59: the forms differ in the duration operand alone, and a line without one is
refused. -/
theorem millisecondFormsAreBaseCommands : Obligations.MillisecondFormsAreBaseCommands := by
  refine fun ch st ms => ⟨fun h => ?_, fun h => ?_⟩
  · simp only [Line.instr, msDuration_of_le h, and_self]
  · simp [Line.event, Line.instr, msDuration_of_lt h]

/-! ### One frame on the pin -/

@[simp] theorem waveformFrom_add (t0 : Nat) (tr : List Segment) (x : Nat) :
    waveformFrom t0 tr (t0 + x) = levelAt tr x := by
  rw [waveformFrom, if_neg (by omega), Nat.add_sub_cancel_left]

theorem waveformFrom_before {t0 x : Nat} (tr : List Segment) (h : x < t0) :
    waveformFrom t0 tr x = low := if_pos h

/-- The bits of a payload on the pin: bit `k` is high for the first entry of its pair. -/
theorem levelAt_bitSegments (p : BitVec 42) (n k x : Nat) (hk : k < n) (hx : x < 1016) :
    levelAt (bitSegments p n) (1016 * k + x) = decide (x < (highLen (wireBit p k)).toNat) := by
  induction n with
  | zero => omega
  | succ n ih =>
    rw [bitSegments_succ, levelAt_append, traceTicks_bitSegments]
    by_cases h : k < n
    · rw [if_pos (by omega), ih h]
    · obtain rfl : k = n := by omega
      rw [if_neg (by omega), Nat.add_sub_cancel_left]
      simp [levelAt, Config.txIdle]

section Frame
variable (p : BitVec 42) {x : Nat}

/-- A frame begins with the preamble. -/
theorem levelAt_frame_preamble (h : x < 3004) :
    levelAt (frameSegments (frameOf p)) x =
      levelAt [⟨low, 840#16⟩, ⟨high, 1440#16⟩, ⟨low, 724#16⟩] x := by
  rw [frameSegments_frameOf, List.append_assoc, levelAt_append]
  exact if_pos h

/-- After the preamble come the bits. -/
theorem levelAt_frame_bits (h : x < 42672) :
    levelAt (frameSegments (frameOf p)) (3004 + x) = levelAt (bitSegments p 42) x := by
  rw [frameSegments_frameOf, List.append_assoc, levelAt_append, levelAt_append]
  simp [traceTicks, h]

/-- After the bits comes the trailer. -/
theorem levelAt_frame_trailer :
    levelAt (frameSegments (frameOf p)) (45676 + x) =
      levelAt [⟨high, 292#16⟩, ⟨low, 1476#16⟩] x := by
  rw [frameSegments_frameOf, levelAt_append]
  simp [traceTicks]

end Frame

/-- Settles O27: the preamble, the bits and the trailer, each on its own. -/
theorem frameOnThePin : Obligations.FrameOnThePin := by
  intro p t0
  simp only [waveformFrom_add]
  refine ⟨fun x h => waveformFrom_before _ h, fun x h => ?_, fun x h h' => ?_, fun x h h' => ?_,
    fun k x hk hx => ?_, fun x h h' => ?_, fun x h => ?_, ?_⟩
  · rw [levelAt_frame_preamble p (by omega)]
    exact if_pos h
  · rw [levelAt_frame_preamble p (by omega)]
    simp [levelAt, show ¬ x < 840 by omega, show x - 840 < 1440 by omega]
  · rw [levelAt_frame_preamble p (by omega)]
    simp [levelAt, Config.txIdle, show ¬ x < 840 by omega, show ¬ x - 840 < 1440 by omega]
  · rw [Nat.add_assoc, levelAt_frame_bits p (by omega), levelAt_bitSegments p 42 k x hk hx,
      highLen_eq]
    split <;> rfl
  · obtain ⟨y, rfl⟩ := Nat.exists_eq_add_of_le h
    rw [levelAt_frame_trailer]
    simp [levelAt, show y < 292 by omega]
  · obtain ⟨y, rfl⟩ := Nat.exists_eq_add_of_le (show 45676 ≤ x by omega)
    rw [levelAt_frame_trailer]
    simp [levelAt, Config.txIdle, show 292 ≤ y by omega]
  · simp [frameSegments_frameOf, traceTicks]

end Sys2Proof.Machine
end

section
/-! The frame encoder family (40_frame_encoder.md): the checksum, the wire bits of a payload, the
entries of a frame, what ENCODE leaves in the buffer. -/

namespace Sys2Proof.Machine

/-! ### The checksum -/

/-- The checksum in arithmetic on the operands. -/
theorem checksum_toNat (id : BitVec 16) (chan cmd : BitVec 4) (str : BitVec 8) :
    (checksum id chan cmd str).toNat =
      (id.toNat / 256 + id.toNat % 256 + chan.toNat + cmd.toNat + str.toNat) % 256 := by
  have hhigh : (id.extractLsb' 8 8).toNat = id.toNat / 256 := by
    rw [BitVec.extractLsb'_toNat, Nat.shiftRight_eq_div_pow]
    omega
  have hlow : (id.extractLsb' 0 8).toNat = id.toNat % 256 := by simp
  rw [checksum, BitVec.toNat_ofNat, hhigh, hlow]

/-- Settles O18: the sum is the checksum's own, and no acceptance latches a BEEP's strength. -/
theorem checksumIsTheWrappingByteSum : Obligations.ChecksumIsTheWrappingByteSum := by
  refine ⟨fun id chan cmd str => ⟨checksum_toNat id chan cmd str, fun hchan hcmd => ?_⟩, encode_chk,
    fun _ _ hk => effectiveStrength_beep hk, by decide, by decide⟩
  have hid := id.isLt
  have hstr := str.isLt
  omega

/-! ### The wire bits of a payload -/

section WireBits
variable (id : BitVec 16) (chan cmd : BitVec 4) (str : BitVec 8)

/-- The first 24 wire bits are those of the id and the two codes. -/
theorem wireBit_payload_head {k : Nat} (hk : k < 24) :
    wireBit (payload id chan cmd str) k = (id ++ chan ++ cmd).getLsbD (23 - k) := by
  rw [wireBit, payload, BitVec.getLsbD_append, if_neg (by omega), BitVec.getLsbD_append,
    if_neg (by omega), BitVec.getLsbD_append, if_neg (by omega)]
  congr 1
  omega

theorem wireBit_payload_id {k : Nat} (hk : k < 16) :
    wireBit (payload id chan cmd str) k = id.getLsbD (15 - k) := by
  rw [wireBit_payload_head _ _ _ _ (by omega), BitVec.getLsbD_append, if_neg (by omega),
    BitVec.getLsbD_append, if_neg (by omega)]
  congr 1
  omega

theorem wireBit_payload_chan {j : Nat} (hj : j < 4) :
    wireBit (payload id chan cmd str) (16 + j) = chan.getLsbD (3 - j) := by
  rw [wireBit_payload_head _ _ _ _ (by omega), BitVec.getLsbD_append, if_neg (by omega),
    BitVec.getLsbD_append, if_pos (by omega)]
  congr 1
  omega

theorem wireBit_payload_cmd {j : Nat} (hj : j < 4) :
    wireBit (payload id chan cmd str) (20 + j) = cmd.getLsbD (3 - j) := by
  rw [wireBit_payload_head _ _ _ _ (by omega), BitVec.getLsbD_append, if_pos (by omega)]
  congr 1
  omega

theorem wireBit_payload_strength {j : Nat} (hj : j < 8) :
    wireBit (payload id chan cmd str) (24 + j) = str.getLsbD (7 - j) := by
  rw [wireBit, payload, BitVec.getLsbD_append, if_neg (by omega), BitVec.getLsbD_append,
    if_neg (by omega), BitVec.getLsbD_append, if_pos (by omega)]
  congr 1
  omega

theorem wireBit_payload_checksum {j : Nat} (hj : j < 8) :
    wireBit (payload id chan cmd str) (32 + j) = (checksum id chan cmd str).getLsbD (7 - j) := by
  rw [wireBit, payload, BitVec.getLsbD_append, if_neg (by omega), BitVec.getLsbD_append,
    if_pos (by omega)]
  congr 1
  omega

/-- The padding (40_frame_encoder.md R142). -/
theorem wireBit_payload_padding {k : Nat} (hk : 40 ≤ k) :
    wireBit (payload id chan cmd str) k = false := by
  rw [wireBit, payload, BitVec.getLsbD_append, if_pos (by omega), BitVec.getLsbD_zero]

/-- A code of at most 3 has its two high bits clear. -/
theorem code_highBits {c : BitVec 4} (h : c.toNat ≤ 3) :
    c.getLsbD 3 = false ∧ c.getLsbD 2 = false := by
  rw [← BitVec.testBit_toNat, ← BitVec.testBit_toNat]
  exact ⟨Nat.testBit_lt_two_pow (by omega), Nat.testBit_lt_two_pow (by omega)⟩

/-- The high bits of legal codes on the wire. -/
theorem wireBit_payload_codeHighBits (hchan : chan.toNat ≤ 2) (hcmd : cmd.toNat ≤ 3) :
    wireBit (payload id chan cmd str) 16 = false ∧ wireBit (payload id chan cmd str) 17 = false ∧
    wireBit (payload id chan cmd str) 20 = false ∧
      wireBit (payload id chan cmd str) 21 = false := by
  obtain ⟨hchan3, hchan2⟩ := code_highBits (c := chan) (by omega)
  obtain ⟨hcmd3, hcmd2⟩ := code_highBits hcmd
  exact ⟨(wireBit_payload_chan id chan cmd str (j := 0) (by decide)).trans hchan3,
    (wireBit_payload_chan id chan cmd str (j := 1) (by decide)).trans hchan2,
    (wireBit_payload_cmd id chan cmd str (j := 0) (by decide)).trans hcmd3,
    (wireBit_payload_cmd id chan cmd str (j := 1) (by decide)).trans hcmd2⟩

end WireBits

/-- Settles O19: one lemma per field of the payload. -/
theorem payloadBitsInWireOrder : Obligations.PayloadBitsInWireOrder := fun id chan cmd str =>
  ⟨fun _ => wireBit_payload_id id chan cmd str, fun _ => wireBit_payload_chan id chan cmd str,
    fun _ => wireBit_payload_cmd id chan cmd str, fun _ => wireBit_payload_strength id chan cmd str,
    fun _ => wireBit_payload_checksum id chan cmd str,
    wireBit_payload_padding id chan cmd str (by decide),
    wireBit_payload_padding id chan cmd str (by decide),
    wireBit_payload_codeHighBits id chan cmd str⟩

/-! ### The entries of a frame -/

/-- The first entry of bit `k` (40_frame_encoder.md R145). -/
theorem frameOf_getElem?_highLen (p : BitVec 42) {k : Nat} (hk : k < 42) :
    (frameOf p)[3 + 2 * k]? = some (if wireBit p k then 804#16 else 292#16) := by
  rw [← highLen_eq]
  exact frameOf_getElem?_bit p k 0 hk (by decide)

/-- The second entry of bit `k` (40_frame_encoder.md R145). -/
theorem frameOf_getElem?_lowLen (p : BitVec 42) {k : Nat} (hk : k < 42) :
    (frameOf p)[4 + 2 * k]? = some (if wireBit p k then 212#16 else 724#16) := by
  rw [← lowLen_eq, show 4 + 2 * k = 3 + 2 * k + 1 by omega]
  exact frameOf_getElem?_bit p k 1 hk (by decide)

/-- Two frames agree at an entry if their payloads agree in the bit that the entry belongs to. -/
theorem frameOf_getElem?_congr {p q : BitVec 42} {i : Nat}
    (h : ∀ k, k < 42 → i = 3 + 2 * k ∨ i = 4 + 2 * k → wireBit p k = wireBit q k) :
    (frameOf p)[i]? = (frameOf q)[i]? := by
  by_cases hpre : i < 3
  · rw [frameOf_getElem?_preamble p i hpre, frameOf_getElem?_preamble q i hpre]
  by_cases htrail : 87 ≤ i
  · obtain ⟨j, rfl⟩ := Nat.exists_eq_add_of_le htrail
    by_cases hj : j < 2
    · rw [frameOf_getElem?_trailer p j hj, frameOf_getElem?_trailer q j hj]
    · rw [List.getElem?_eq_none (by simp; omega), List.getElem?_eq_none (by simp; omega)]
  obtain ⟨k, rfl | rfl⟩ : ∃ k, i = 3 + 2 * k ∨ i = 4 + 2 * k := ⟨(i - 3) / 2, by omega⟩
  · rw [frameOf_getElem?_highLen p (by omega), frameOf_getElem?_highLen q (by omega),
      h k (by omega) (.inl rfl)]
  · rw [frameOf_getElem?_lowLen p (by omega), frameOf_getElem?_lowLen q (by omega),
      h k (by omega) (.inr rfl)]

/-- The pair of bit `k`, as a part of the frame. -/
theorem frameOf_pair (p : BitVec 42) {k : Nat} (hk : k < 42) :
    ((frameOf p).drop (3 + 2 * k)).take 2 = symbol (wireBit p k) := by
  rw [List.take_add_one, List.take_add_one, List.take_zero, List.getElem?_drop, List.getElem?_drop,
    frameOf_getElem?_bit p k 0 hk (by decide), frameOf_getElem?_bit p k 1 hk (by decide)]
  rfl

/-- Two 0 bits in a row, as a part of the frame. -/
theorem frameOf_two_zeros {p : BitVec 42} {k : Nat} (hk : k + 1 < 42) (h : wireBit p k = false)
    (h' : wireBit p (k + 1) = false) :
    ((frameOf p).drop (3 + 2 * k)).take 4 = [292#16, 724#16, 292#16, 724#16] := by
  rw [show 4 = 2 + 2 from rfl, List.take_add, List.drop_drop,
    show 3 + 2 * k + 2 = 3 + 2 * (k + 1) by omega, frameOf_pair p (by omega), frameOf_pair p hk, h,
    h', symbol_false]
  rfl

theorem frameOf_take_preamble (p : BitVec 42) :
    (frameOf p).take 3 = [840#16, 1440#16, 724#16] := by
  rw [frameOf_eq, List.append_assoc]
  exact List.take_left' rfl

theorem frameOf_drop_trailer (p : BitVec 42) : (frameOf p).drop 87 = [292#16, 1476#16] := by
  rw [frameOf_eq]
  exact List.drop_left' (by simp)

/-! ### What ENCODE leaves in the buffer -/

/-- After ENCODE the buffer reads as the frame of the operand registers. -/
theorem encode_frame_read {s : State} {k : Nat} {t : Entry} (hk : k < 89)
    (h : (frameOf (payload s.deviceId s.chan s.cmd s.strength))[k]? = some t) :
    s.encode.frame.read (BitVec.ofNat 7 k) = t := by
  rw [encode_frame]
  exact Option.some.inj ((read_writeFrame s.frame _ _ _ _ k hk).symm.trans h)

/-- Settles O20: the buffer holds the frame, whose entries are those of the map. -/
theorem frameFollowsTheMap : Obligations.FrameFollowsTheMap := fun s =>
  ⟨encode_frame_read (k := 0) (by decide) (frameOf_getElem?_preamble _ 0 (by decide)),
    encode_frame_read (k := 1) (by decide) (frameOf_getElem?_preamble _ 1 (by decide)),
    encode_frame_read (k := 2) (by decide) (frameOf_getElem?_preamble _ 2 (by decide)),
    fun k hk => ⟨encode_frame_read (by omega) (frameOf_getElem?_highLen _ hk),
      encode_frame_read (by omega) (frameOf_getElem?_lowLen _ hk)⟩,
    encode_frame_read (k := 87) (by decide) (frameOf_getElem?_trailer _ 0 (by decide)),
    encode_frame_read (k := 88) (by decide) (frameOf_getElem?_trailer _ 1 (by decide))⟩

/-- Settles O21: the writes cover the indices of the frame's 89 entries. -/
theorem encodeWritesExactly89Entries : Obligations.EncodeWritesExactly89Entries := by
  refine fun s => ⟨(encode_eq s).trans (by rw [encode_frame]), fun i hi => ?_, fun i hi => ?_⟩
  · rw [encode_frame, entryIndex_eq_ofNat i, written_writeFrame _ _ _ _ _ _ hi,
      List.getElem?_eq_getElem (by simpa using hi), Option.isSome_some]
  · rw [encode_frame]
    exact ⟨Memory.written_writeFrom_above _ 0 _ i (by simp) (by simpa using hi),
      read_writeFrame_above _ _ _ _ _ i hi⟩

/-- Settles O22: by the map, for either value of the bit. -/
theorem bitPairsSumTo1016 : Obligations.BitPairsSumTo1016 := by
  intro s
  obtain ⟨h0, h1, h2, hbits, h87, h88⟩ := frameFollowsTheMap s
  refine ⟨fun k hk => ?_, ?_, ?_, fun hid => ?_⟩
  · obtain ⟨hhigh, hlow⟩ := hbits k hk
    simp only [hhigh, hlow]
    split <;> rfl
  · simp only [h0, h1]
    rfl
  · simp only [h87, h88]
    rfl
  · have hbit :=
      (wireBit_payload_id s.deviceId s.chan s.cmd s.strength (k := 0) (by decide)).trans hid
    obtain ⟨h3, -⟩ := hbits 0 (by decide)
    rw [if_pos hbit] at h3
    exact congrArg₂ (fun a b : Entry => a.toNat + b.toNat) h2 h3

/-! ### The time of a frame -/

/-- How long the bits of a payload are high: 292 for each, and 512 more for a 1. -/
theorem highTicks_bitSegments (p : BitVec 42) (n : Nat) :
    highTicks (bitSegments p n) = 292 * n + 512 * (List.range n).countP (wireBit p) := by
  induction n with
  | zero => rfl
  | succ n ih =>
    rw [bitSegments_succ, highTicks_append, ih, List.range_succ, List.countP_append,
      List.countP_singleton, highLen_eq]
    cases wireBit p n with
    | false =>
      simp [highTicks]
      omega
    | true =>
      simp [highTicks]
      omega

/-- A legal command code has a 1 among its two low bits. -/
theorem legalCommand_lowBits {cmd : BitVec 4} (h : legalCommand cmd = true) :
    cmd.getLsbD 1 = true ∨ cmd.getLsbD 0 = true := by
  revert cmd
  decide

theorem ones_pos_of_legalCommand (id : BitVec 16) (chan : BitVec 4) {cmd : BitVec 4}
    (str : BitVec 8) (h : legalCommand cmd = true) :
    1 ≤ (List.range 42).countP (wireBit (payload id chan cmd str)) := by
  refine List.countP_pos_iff.mpr ?_
  obtain h1 | h0 := legalCommand_lowBits h
  · exact ⟨22, by simp, (wireBit_payload_cmd id chan cmd str (j := 2) (by decide)).trans h1⟩
  · exact ⟨23, by simp, (wireBit_payload_cmd id chan cmd str (j := 3) (by decide)).trans h0⟩

/-- Settles O23: the preamble, the bits and the trailer, each with its own time. -/
theorem frameTimeAndHighTime : Obligations.FrameTimeAndHighTime := by
  intro id chan cmd str ones
  rw [encodeFrame, frameSegments_frameOf]
  refine ⟨?_, ?_, ones_pos_of_legalCommand id chan str⟩
  · simp [traceTicks]
  · simp [highTicks, highTicks_bitSegments]
    omega

/-! ### What a frame tells -/

/-- Settles O24: an entry is one of the preamble, of a bit or of the trailer. -/
theorem entriesStayInRange : Obligations.EntriesStayInRange := by
  intro id chan cmd str t h
  have hrange : ∀ t ∈ [840#16, 1440#16, 724#16, 292#16, 1476#16, 804#16, 212#16],
      t ∈ [212#16, 292#16, 724#16, 804#16, 840#16, 1440#16, 1476#16] ∧
        212 ≤ t.toNat ∧ t.toNat ≤ 1476 := by simp
  exact hrange t (mem_frameOf h)

theorem highLen_injective : Function.Injective highLen := by
  unfold Function.Injective
  decide

/-- A frame's first entry of a bit tells the bit. -/
theorem wireBit_eq_of_frameOf_eq {p q : BitVec 42} (h : frameOf p = frameOf q) {k : Nat}
    (hk : k < 42) : wireBit p k = wireBit q k := by
  have hentry : (frameOf p)[3 + 2 * k]? = (frameOf q)[3 + 2 * k]? := by rw [h]
  rw [frameOf_getElem?_highLen p hk, frameOf_getElem?_highLen q hk, ← highLen_eq,
    ← highLen_eq] at hentry
  exact highLen_injective (Option.some.inj hentry)

theorem frameOf_injective : Function.Injective frameOf := by
  intro p q h
  refine BitVec.eq_of_getLsbD_eq fun i hi => ?_
  have hbit := wireBit_eq_of_frameOf_eq h (k := 41 - i) (by omega)
  rwa [wireBit, wireBit, show 41 - (41 - i) = i by omega] at hbit

/-- A concatenation tells its two parts. -/
theorem append_inj {m n : Nat} {a a' : BitVec m} {b b' : BitVec n} (h : a ++ b = a' ++ b') :
    a = a' ∧ b = b' := by
  have hhigh := congrArg (BitVec.extractLsb' n m) h
  have hlow := congrArg (BitVec.extractLsb' 0 n) h
  rw [BitVec.extractLsb'_append_eq_left, BitVec.extractLsb'_append_eq_left] at hhigh
  rw [BitVec.extractLsb'_append_eq_right, BitVec.extractLsb'_append_eq_right] at hlow
  exact ⟨hhigh, hlow⟩

/-- Settles O25: a frame tells its payload, a payload its fields. -/
theorem encodeIsInjective : Obligations.EncodeIsInjective := by
  intro id id' chan chan' cmd cmd' str str' h
  obtain ⟨h, -⟩ := append_inj (frameOf_injective h)
  obtain ⟨h, -⟩ := append_inj h
  obtain ⟨h, hstr⟩ := append_inj h
  obtain ⟨h, hcmd⟩ := append_inj h
  obtain ⟨hid, hchan⟩ := append_inj h
  exact ⟨hid, hchan, hcmd, hstr⟩

/-- Payloads that differ in the strength alone agree outside the strength and the checksum. -/
theorem wireBit_payload_strength_congr (id : BitVec 16) (chan cmd : BitVec 4) (str str' : BitVec 8)
    {k : Nat} (hk : k < 24 ∨ 40 ≤ k) :
    wireBit (payload id chan cmd str) k = wireBit (payload id chan cmd str') k := by
  obtain hk | hk := hk
  · rw [wireBit_payload_head _ _ _ _ hk, wireBit_payload_head _ _ _ _ hk]
  · rw [wireBit_payload_padding _ _ _ _ hk, wireBit_payload_padding _ _ _ _ hk]

/-- Settles O26: an entry varies with its own bit only, and the payload says which bits are
fixed. -/
theorem framesVaryInTheirFieldsOnly : Obligations.FramesVaryInTheirFieldsOnly := by
  intro id chan cmd str str' hchan hcmd f
  obtain ⟨h16, h17, h20, h21⟩ := wireBit_payload_codeHighBits id chan cmd str hchan hcmd
  have h40 := wireBit_payload_padding id chan cmd str (k := 40) (by decide)
  have h41 := wireBit_payload_padding id chan cmd str (k := 41) (by decide)
  refine ⟨⟨encodeFrame_length .., frameOf_take_preamble _, ?_,
    frameOf_two_zeros (k := 16) (by decide) h16 h17,
    frameOf_two_zeros (k := 20) (by decide) h20 h21⟩, fun k hk => ?_, fun i hi => ?_⟩
  · calc f.drop 83
        = (f.drop 83).take 4 ++ f.drop 87 := by
          rw [show 87 = 83 + 4 from rfl, ← List.drop_drop, List.take_append_drop]
      _ = [292#16, 724#16, 292#16, 724#16] ++ [292#16, 1476#16] :=
          congrArg₂ _ (frameOf_two_zeros (k := 40) (by decide) h40 h41) (frameOf_drop_trailer _)
  · have hhigh := frameOf_getElem?_highLen (payload id chan cmd str) hk
    have hlow := frameOf_getElem?_lowLen (payload id chan cmd str) hk
    cases hbit : wireBit (payload id chan cmd str) k with
    | false =>
      rw [hbit] at hhigh hlow
      exact .inl ⟨hhigh, hlow⟩
    | true =>
      rw [hbit] at hhigh hlow
      exact .inr ⟨hhigh, hlow⟩
  · exact frameOf_getElem?_congr fun k _ hik =>
      wireBit_payload_strength_congr id chan cmd str str' (by omega)

end Sys2Proof.Machine
end

section
/-! The pulse driver family (41_pulse_driver.md): the pulses of a frame, the two steps of phase DRIVE,
DRIVE over any list of entries. -/

namespace Sys2Proof.Machine

/-! ### The pulses of a frame -/

/-- Segments that alternate from `l` on, the pin being at the other level before, have a pulse for every
two entries, and one more if they begin and end high. -/
theorem pulses_segmentsFrom (l : Level) (entries : List Entry) :
    pulses (!l) (segmentsFrom l entries) = (entries.length + l.toNat) / 2 := by
  induction entries generalizing l with
  | nil => cases l <;> rfl
  | cons t rest ih =>
    have hrest := ih (!l)
    rw [Bool.not_not] at hrest
    rw [segmentsFrom, pulses, hrest, List.length_cons]
    cases l with
    | false =>
      rw [if_neg (by simp)]
      exact Nat.zero_add _
    | true =>
      rw [if_pos ⟨rfl, rfl⟩]
      show 1 + (rest.length + 0) / 2 = (rest.length + 1 + 1) / 2
      omega

/-- A low segment begins no pulse, whatever the pin was before. -/
theorem pulses_segmentsFrom_low (l : Level) (entries : List Entry) :
    pulses l (segmentsFrom low entries) = entries.length / 2 := by
  rw [← Nat.add_zero entries.length]
  refine Eq.trans ?_ (pulses_segmentsFrom low entries)
  cases entries with
  | nil => rfl
  | cons t rest => simp [segmentsFrom, pulses]

/-- Settles O28: the segments are as many as the entries, and every second one is a pulse. -/
theorem frameHas44Pulses : Obligations.FrameHas44Pulses := by
  intro p
  rw [frameSegments, segmentsFrom_length, pulses_segmentsFrom_low, frameOf_length]
  decide

/-! ### The two steps of phase DRIVE -/

theorem driveStep_of_lt {tm : Config.Timing} {s : State} (h : s.idx.toNat < s.frameLen.toNat) :
    driveStep tm s = entryStep tm s := if_pos h

theorem driveStep_of_eq {tm : Config.Timing} {s : State} (h : s.idx.toNat = s.frameLen.toNat) :
    driveStep tm s = .next (frameEndStep s) := by
  rw [driveStep, if_neg h.not_lt, if_pos h]

theorem step_drive {s : State} (hp : s.phase = .drive) (hr : s.inputs.rst = false)
    (hd : s.dueEvent = none) : step s = driveStep Config.taken s := by
  rw [step_loop (busy_iff.mpr (.inr hp)) hr hd, loopStep_drive hp]

/-- Settles O29: the step is the entry step, which plays the entry whole. -/
theorem entryStepPlaysOneEntry : Obligations.EntryStepPlaysOneEntry := by
  intro s t hp hlt ht hr hd hno hroom
  rw [step_drive hp hr hd, driveStep_of_lt hlt]
  exact entryStep_eq ht hno hroom

/-- At the end of a frame that the invariant speaks of, `IDX` is 89 and `LEVEL` high
(41_pulse_driver.md R175). -/
theorem Inv.idx_level_at_end {s : State} (h : Inv s) (hp : s.phase = .drive)
    (hend : s.idx.toNat = s.frameLen.toNat) : s.idx = 89#7 ∧ s.level = high := by
  have hidx : s.idx.toNat = 89 := by
    rw [hend, (h.loaded (busy_iff.mpr (.inr hp))).lengthIs89]
    rfl
  refine ⟨BitVec.eq_of_toNat_eq hidx, ?_⟩
  rw [h.levelParity hp, hidx]
  rfl

/-- Settles O30: the step is the frame end, and the invariant gives the last `IDX` and `LEVEL`. -/
theorem frameEndForcesThePinLow : Obligations.FrameEndForcesThePinLow := by
  intro s hp hend hr hd
  refine ⟨?_, fun hi => hi.idx_level_at_end hp hend⟩
  rw [step_drive hp hr hd, driveStep_of_eq hend]
  rfl

/-! ### No step faults -/

theorem entryStep_ne_fault (tm : Config.Timing) (s : State) (f : Fault) :
    entryStep tm s ≠ .fault f := by
  unfold entryStep
  dsimp only
  split
  · nofun
  · split <;> nofun

/-- In DRIVE a step is enabled up to `IDX` equal to `FRAME_LEN` (41_pulse_driver.md R171, log 15). -/
theorem driveStep_ne_fault {tm : Config.Timing} {s : State} (h : s.idx.toNat ≤ s.frameLen.toNat)
    (f : Fault) : driveStep tm s ≠ .fault f := by
  obtain hlt | heq := h.lt_or_eq
  · rw [driveStep_of_lt hlt]
    exact entryStep_ne_fault tm s f
  · rw [driveStep_of_eq heq]
    nofun

theorem deadlineTest_ne_fault (tm : Config.Timing) (s : State) (f : Fault) :
    deadlineTest tm s ≠ .fault f := by
  unfold deadlineTest
  split
  · nofun
  · split <;> nofun

theorem loopStep_ne_fault {tm : Config.Timing} {s : State} (h : Inv s) (f : Fault) :
    loopStep tm s ≠ .fault f := by
  unfold loopStep
  split
  next => exact deadlineTest_ne_fault tm s f
  next hp => exact driveStep_ne_fault (h.idxBound hp) f
  next => nofun

/-- An illegal word's fault is a next state, and a launch that does not fit is refused
(60_exceptions.md R256, 42_transmitter_session.md R204). -/
theorem accept_ne_fault (tm : Config.Timing) (w : BitVec 16) (d : Duration) (s : State) (f : Fault) :
    accept tm w d s ≠ .fault f := by
  unfold accept
  split
  · nofun
  · split
    · nofun
    · split <;> nofun

theorem offerCommand_ne_fault (w : BitVec 16) (d : Duration) (s : State) (f : Fault) :
    offerCommand w d s ≠ .fault f := by
  unfold offerCommand
  split
  · exact accept_ne_fault _ w d s f
  · nofun

theorem execConfigure_ne_fault (id : BitVec 16) (s : State) (f : Fault) :
    execConfigure id s ≠ .fault f := by
  unfold execConfigure
  split <;> nofun

theorem exec_ne_fault (i : Instr) (s : State) (f : Fault) : exec i s ≠ .fault f := by
  cases i with
  | shock chan strength d => exact offerCommand_ne_fault _ d s f
  | vibrate chan strength d => exact offerCommand_ne_fault _ d s f
  | beep chan d => exact offerCommand_ne_fault _ d s f
  | configure id => exact execConfigure_ne_fault id s f

theorem waitStep_ne_fault (s : State) (f : Fault) : waitStep s ≠ .fault f := by
  unfold waitStep
  split
  · nofun
  · split
    · nofun
    · split <;> nofun
  · nofun

/-- Settles O51: the driver alone can fault, and there the invariant bounds `IDX`. -/
theorem noFaultFromTheInvariant : Obligations.NoFaultFromTheInvariant := by
  intro s f hi
  unfold step
  split
  next => nofun
  next => nofun
  next o =>
    split
    · exact exec_ne_fault _ _ f
    · nofun
  next => exact loopStep_ne_fault hi f
  next => exact waitStep_ne_fault s f

/-! ### DRIVE over any list of entries -/

/-- The ticks in which a list of entries is played, the gap after each included
(41_pulse_driver.md R179). -/
theorem sum_holdTicks (tm : Config.Timing) (l : List Entry) :
    (l.map (holdTicks tm)).sum = (l.map BitVec.toNat).sum + l.length * tm.tGap := by
  unfold holdTicks
  rw [List.sum_map_add, List.map_const', List.sum_replicate, smul_eq_mul]

/-- What DRIVE over a list leaves of a state when it has played the entry `e`, which is what the entry
step leaves but for `IDX` (`entryStep_eq_playEntry`). -/
def State.playEntry (tm : Config.Timing) (s : State) (e : Entry) : State :=
  { s with
    txOut := s.level, trace := s.trace ++ [⟨s.level, e⟩], starts := s.starts ++ [s.time],
    time := s.time + BitVec.ofNat 64 (holdTicks tm e), level := !s.level }

theorem playList_cons (tm : Config.Timing) (e : Entry) (rest : List Entry) (s : State) :
    State.playList tm (e :: rest) s = State.playList tm rest (s.playEntry tm e) := rfl

theorem playList_time (tm : Config.Timing) (l : List Entry) (s : State) :
    (State.playList tm l s).time = s.time + BitVec.ofNat 64 (l.map (holdTicks tm)).sum := by
  induction l generalizing s with
  | nil => simp [State.playList]
  | cons e rest ih =>
    rw [playList_cons, ih, List.map_cons, List.sum_cons, BitVec.ofNat_add, ← BitVec.add_assoc]
    rfl

theorem playEntry_time_toNat {tm : Config.Timing} {s : State} {e : Entry}
    (h : s.time.toNat + holdTicks tm e < 2 ^ 64) :
    (s.playEntry tm e).time.toNat = s.time.toNat + holdTicks tm e := time_add_toNat h

theorem entryStep_eq_playEntry {tm : Config.Timing} {s : State} {e : Entry}
    (he : s.frame.read s.idx = e) (hc : s.closedLoop = true)
    (hroom : s.time.toNat + holdTicks tm e < 2 ^ 64) :
    entryStep tm s = .next { s.playEntry tm e with idx := s.idx + 1#7 } :=
  entryStep_eq he (resetBefore_of_closedLoop hc _ _) hroom

/-- DRIVE over a list neither reads nor writes `IDX`. -/
theorem playList_idx (tm : Config.Timing) (l : List Entry) (s : State) (i : EntryIndex) :
    State.playList tm l { s with idx := i } = { State.playList tm l s with idx := i } := by
  induction l generalizing s with
  | nil => rfl
  | cons e rest ih => exact ih (s.playEntry tm e)

/-- The buffer holds the list `l` from `IDX` on, and `FRAME_LEN` is where it ends. -/
structure HoldsFromIdx (s : State) (l : List Entry) : Prop where
  ends : s.idx.toNat + l.length = s.frameLen.toNat
  entries : ∀ k, k < l.length → l[k]? = some (s.frame.read (s.idx + BitVec.ofNat 7 k))

theorem HoldsFromIdx.idx_lt {s : State} {e : Entry} {rest : List Entry}
    (h : HoldsFromIdx s (e :: rest)) : s.idx.toNat < s.frameLen.toNat := by
  have hend := h.ends
  rw [List.length_cons] at hend
  omega

theorem HoldsFromIdx.read_idx {s : State} {e : Entry} {rest : List Entry}
    (h : HoldsFromIdx s (e :: rest)) : s.frame.read s.idx = e := by
  have h0 := h.entries 0 (by simp)
  simpa using h0.symm

/-- After the entry step the buffer holds the rest of the list from `IDX` on. -/
theorem HoldsFromIdx.playEntry {s : State} {e : Entry} {rest : List Entry}
    (h : HoldsFromIdx s (e :: rest)) (hcap : s.frameLen.toNat ≤ 127) (tm : Config.Timing) :
    HoldsFromIdx { s.playEntry tm e with idx := s.idx + 1#7 } rest := by
  obtain ⟨hend, hentries⟩ := h
  rw [List.length_cons] at hend
  refine ⟨?_, fun k hk => ?_⟩
  · show (s.idx + 1#7).toNat + rest.length = s.frameLen.toNat
    rw [BitVec.toNat_add, BitVec.toNat_ofNat]
    omega
  · show rest[k]? = some (s.frame.read (s.idx + 1#7 + BitVec.ofNat 7 k))
    rw [BitVec.add_assoc, ← BitVec.ofNat_add, Nat.add_comm 1 k]
    exact hentries (k + 1) (by simpa using hk)

/-- The steps of the block do with the buffer what DRIVE over a list does with the list, as far as the
7-bit `IDX` can count (41_pulse_driver.md R180, log 30). -/
theorem loopRun_eq_playList {tm : Config.Timing} {l : List Entry} {s : State}
    (hp : s.phase = .drive) (hl : HoldsFromIdx s l) (hcap : s.frameLen.toNat ≤ 127)
    (hc : s.closedLoop = true) (hroom : s.time.toNat + (l.map (holdTicks tm)).sum < 2 ^ 64) :
    loopRun tm (l.length + 1) s =
      .next { State.playList tm l s with idx := s.idx + BitVec.ofNat 7 l.length } := by
  induction l generalizing s with
  | nil =>
    have hstep : loopStep tm s = .next (frameEndStep s) :=
      (loopStep_drive hp).trans (driveStep_of_eq hl.ends)
    rw [List.length_nil, loopRun_of_step hstep, BitVec.add_zero]
    rfl
  | cons e rest ih =>
    rw [List.map_cons, List.sum_cons] at hroom
    have hhold : s.time.toNat + holdTicks tm e < 2 ^ 64 := by omega
    have hstep : loopStep tm s = .next { s.playEntry tm e with idx := s.idx + 1#7 } := by
      rw [loopStep_drive hp, driveStep_of_lt hl.idx_lt]
      exact entryStep_eq_playEntry hl.read_idx hc hhold
    have hroom' : (s.playEntry tm e).time.toNat + (rest.map (holdTicks tm)).sum < 2 ^ 64 := by
      rw [playEntry_time_toNat hhold]
      omega
    have hrest := ih (s := { s.playEntry tm e with idx := s.idx + 1#7 }) hp
      (hl.playEntry hcap tm) hcap hc hroom'
    rw [List.length_cons, loopRun_of_step hstep, hrest, playList_idx, playList_cons,
      Nat.add_comm rest.length 1, BitVec.ofNat_add, BitVec.add_assoc]

/-- Settles O31: the algorithm by what it leaves, the steps by their agreement with it. -/
theorem driveOfAnyListEndsLow : Obligations.DriveOfAnyListEndsLow := by
  refine ⟨fun tm s l => ?_, fun tm s l hp hidx hlevel hcap hlen hentries hc hroom => ?_⟩
  · rw [playList_eq]
    exact ⟨rfl, rfl, rfl, rfl⟩
  · rw [← sum_holdTicks] at hroom ⊢
    have hholds : HoldsFromIdx s l := by
      refine ⟨?_, fun k hk => ?_⟩
      · rw [hidx, hlen, BitVec.toNat_zero, Nat.zero_add]
      · rw [hidx, BitVec.zero_add]
        exact hentries k hk
    refine ⟨_, loopRun_eq_playList hp hholds (hlen.trans_le hcap) hc hroom, ?_, ?_, ?_⟩
    · rw [hidx, BitVec.zero_add]
    · rw [playList_eq, hlevel, frameSegments]
    · dsimp only
      rw [playList_time, time_add_toNat hroom]

end Sys2Proof.Machine
end

section
/-! The transmitter session family (42_transmitter_session.md): the handshakes, waiting, the repeat loop, what
a command keeps and what it does not read. -/

namespace Sys2Proof.Machine

/-! ### The overheads that the spec takes -/

@[simp] theorem taken_tEnc : Config.taken.tEnc = 0 := rfl
@[simp] theorem taken_tChk : Config.taken.tChk = 0 := rfl
@[simp] theorem taken_tGap : Config.taken.tGap = 0 := rfl

@[simp] theorem holdTicks_taken (t : Entry) : holdTicks Config.taken t = t.toNat := rfl

/-! ### How many frames a command sends -/

/-- Settles O36: with no overheads the frames are counted by a division by 47 444. -/
theorem overrunIsLessThanOneFrame : Obligations.OverrunIsLessThanOneFrame := by
  intro d h1 hlt n
  have hn : n = (d + 47443) / 47444 := framesFor_taken d
  refine ⟨?_, ?_, ?_, ?_, ?_, (loopTicks_taken d).trans (by rw [hn])⟩ <;> omega

/-- Each frame that is sent begins before the deadline (42_transmitter_session.md R203). -/
theorem lt_of_lt_framesFor {tm : Config.Timing} {d j : Nat} (h : j < framesFor tm d) :
    j * framePeriod tm + tm.tChk < d := by
  have hpos := framePeriod_pos tm
  have hmul := (Nat.le_div_iff_mul_le hpos).mp (show j + 1 ≤ framesFor tm d from h)
  rw [Nat.add_mul] at hmul
  omega

/-- When all frames are sent the next test does not come before the deadline. -/
theorem le_loopTicks (tm : Config.Timing) (d : Nat) : d ≤ loopTicks tm d := by
  have hpos := framePeriod_pos tm
  have hdiv := Nat.lt_div_mul_add (a := d - tm.tChk + framePeriod tm - 1) hpos
  rw [loopTicks, framesFor]
  omega

theorem framesFor_pos {tm : Config.Timing} {d : Nat} (h : tm.tChk < d) : 1 ≤ framesFor tm d := by
  rw [framesFor, Nat.le_div_iff_mul_le (framePeriod_pos tm)]
  omega

theorem framesFor_zero (tm : Config.Timing) : framesFor tm 0 = 0 := by
  have hpos := framePeriod_pos tm
  rw [framesFor, Nat.zero_sub, Nat.zero_add]
  exact Nat.div_eq_of_lt (by omega)

theorem le_framePeriod (tm : Config.Timing) : 47444 ≤ framePeriod tm := by
  unfold framePeriod Config.frameUs
  omega

/-- Overheads do not add frames. -/
theorem framesFor_le (tm : Config.Timing) (d : Nat) : framesFor tm d ≤ (d + 47443) / 47444 := by
  by_contra! hlt
  have hbegins := lt_of_lt_framesFor hlt
  have hmul := Nat.mul_le_mul_left ((d + 47443) / 47444) (le_framePeriod tm)
  omega

/-! ### The clock's room -/

/-- A block that is not to be reset has `rst` 0 while a command is in progress. -/
theorem rst_false_of_busy {s : State} (hr : s.inputs.rst = true → s.inReset = true)
    (hb : s.busy = true) : s.inputs.rst = false := by
  by_contra hne
  have hp := (inReset_iff.mp (hr (by simpa using hne))).1
  simp [busy_iff, hp] at hb

/-- A bound that no reset comes before is a bound for every earlier time. -/
theorem resetBefore_none_mono {b c : Nat} {now : Ticks} {l : List HostEvent} (hcb : c ≤ b)
    (h : resetBefore b now l = none) : resetBefore c now l = none := by
  induction l generalizing now with
  | nil => rfl
  | cons event rest ih =>
    obtain ⟨moment, p⟩ := event
    cases moment with
    | whenFree d => rfl
    | atTime t =>
      rw [resetBefore] at h ⊢
      by_cases hc : (later now t).toNat < c
      · rw [if_pos (hc.trans_le hcb)] at h
        rw [if_pos hc]
        by_cases hp : p.rst = true
        · rw [if_pos hp] at h
          cases h
        · rw [if_neg hp] at h ⊢
          exact ih h
      · rw [if_neg hc]

/-- A due port change that does not raise `rst` brings a pending reset no nearer. -/
theorem resetPending_drivePorts {s : State} {p : Inputs} {rest : List HostEvent}
    (hd : s.dueEvent = some (p, rest)) (hp : p.rst = false) :
    (s.drivePorts p rest).resetPending = s.resetPending := by
  obtain ⟨t, hhost, hle⟩ := dueEvent_eq_some.mp hd
  simp [State.resetPending, hhost, resetBefore, later_eq_left hle, hp]

theorem frameTicksLeft_check {s : State} (hp : s.phase = .check) : s.frameTicksLeft = 0 := by
  rw [State.frameTicksLeft, hp]

theorem frameTicksLeft_drive {s : State} (hp : s.phase = .drive) :
    s.frameTicksLeft = (((encodeFrame s.deviceId s.chan s.cmd s.strength).drop
      s.idx.toNat).map BitVec.toNat).sum := by
  rw [State.frameTicksLeft, hp]

theorem frameTicksLeft_start {s : State} (hp : s.phase = .drive) (hidx : s.idx = 0#7) :
    s.frameTicksLeft = 47444 := by
  rw [frameTicksLeft_drive hp, hidx]
  exact encodeFrame_sum ..

/-- While a command is in progress the entry at `IDX` is that of the frame. -/
theorem Loaded.getElem?_idx {s : State} (h : Loaded s) (hlt : s.idx.toNat < s.frameLen.toNat) :
    (encodeFrame s.deviceId s.chan s.cmd s.strength)[s.idx.toNat]? =
      some (s.frame.read s.idx) := by
  rw [h.lengthIs89] at hlt
  rw [h.entries _ hlt, ← entryIndex_eq_ofNat]

/-- Playing an entry takes its ticks off those left in the frame. -/
theorem frameTicksLeft_playEntry {s : State} (h : Loaded s) (hp : s.phase = .drive)
    (hlt : s.idx.toNat < s.frameLen.toNat) (tm : Config.Timing) :
    s.frameTicksLeft = (s.frame.read s.idx).toNat +
      State.frameTicksLeft { s.playEntry tm (s.frame.read s.idx) with idx := s.idx + 1#7 } := by
  have hidx : s.idx.toNat < 89 := by simpa [h.lengthIs89] using hlt
  obtain ⟨hlen, hread⟩ := List.getElem?_eq_some_iff.mp (h.getElem?_idx hlt)
  rw [frameTicksLeft_drive hp, frameTicksLeft_drive (by exact hp), List.drop_eq_getElem_cons hlen,
    hread, List.map_cons, List.sum_cons]
  dsimp only
  rw [idx_succ_toNat hidx]
  rfl

theorem frameTicksLeft_end {s : State} (h : Loaded s) (hp : s.phase = .drive)
    (hend : s.idx.toNat = s.frameLen.toNat) : s.frameTicksLeft = 0 := by
  rw [frameTicksLeft_drive hp, hend, h.lengthIs89, List.drop_of_length_le (by simp)]
  rfl

/-- The entries of a frame take time. -/
theorem Loaded.read_idx_pos {s : State} (h : Loaded s) (hlt : s.idx.toNat < s.frameLen.toNat) :
    0 < (s.frame.read s.idx).toNat := by
  obtain ⟨-, hge, -⟩ := entriesStayInRange _ _ _ _ _ (List.mem_of_getElem? (h.getElem?_idx hlt))
  omega

/-- The time at which the frame in progress ends. -/
def State.frameEnds (s : State) : Nat := s.time.toNat + s.frameTicksLeft

/-- The time at which the command in progress ends. -/
def State.commandEnds (s : State) : Nat :=
  s.frameEnds + loopTicks Config.taken (s.deadline.toNat - s.frameEnds)

/-- The room is kept where the command's end is, and a pending reset stays pending. -/
theorem ClockRoom.of_commandEnds_eq {s t : State} (h : ClockRoom s) (hb : s.busy = true)
    (hr : s.inputs.rst = false) (hpend : t.resetPending = false → s.resetPending = false)
    (hend : t.commandEnds = s.commandEnds) : ClockRoom t := fun _ _ hp =>
  hend.trans_lt (h hb hr (hpend hp))

theorem commandEnds_of_frameEnds_eq {s t : State} (hend : t.frameEnds = s.frameEnds)
    (hd : t.deadline = s.deadline) : t.commandEnds = s.commandEnds := by
  rw [State.commandEnds, State.commandEnds, hend, hd]

theorem clockRoom_of_not_busy {s : State} (h : s.busy = false) : ClockRoom s :=
  fun hb => absurd hb (by simp [h])

theorem loopTicks_taken_of_pos {d : Nat} (h : 0 < d) :
    loopTicks Config.taken d = 47444 + loopTicks Config.taken (d - 47444) := by
  rw [loopTicks_taken, loopTicks_taken]
  omega

theorem clockRoom_deadlineTest {s t : State} (hroom : ClockRoom s) (hp : s.phase = .check)
    (hr : s.inputs.rst = false) (h : deadlineTest Config.taken s = .next t) : ClockRoom t := by
  obtain ⟨-, ⟨hlt, rfl⟩ | ⟨-, rfl⟩⟩ := deadlineTest_cases h
  · refine hroom.of_commandEnds_eq (busy_iff.mpr (.inl hp)) hr (fun hn => ?_) ?_
    · simpa [State.resetPending] using hn
    · rw [taken_tChk, Nat.add_zero] at hlt
      rw [State.commandEnds, State.commandEnds, State.frameEnds, State.frameEnds,
        frameTicksLeft_start rfl rfl, frameTicksLeft_check hp,
        loopTicks_taken_of_pos (d := s.deadline.toNat - (s.time.toNat + 0)) (by omega)]
      simp only [taken_tChk, BitVec.add_zero, Nat.add_zero, Nat.sub_add_eq,
        Nat.add_assoc]
  · exact clockRoom_of_not_busy rfl

theorem clockRoom_entryStep {s t : State} (hroom : ClockRoom s) (hl : Loaded s)
    (hp : s.phase = .drive) (hr : s.inputs.rst = false) (hlt : s.idx.toNat < s.frameLen.toNat)
    (h : entryStep Config.taken s = .next t) : ClockRoom t := by
  obtain ⟨e, rfl, ⟨cut, hcut, rfl⟩ | ⟨hno, hfits, rfl⟩⟩ := entryStep_cases h
  · have hpend := resetBefore_at_reset hcut
    exact fun _ _ hn => absurd hn (by simp [State.resetPending, hpend])
  · have hle := Nat.add_le_add_left (hl.read_idx_pos hlt) s.time.toNat
    refine hroom.of_commandEnds_eq (busy_iff.mpr (.inr hp)) hr (fun _ => ?_)
      (commandEnds_of_frameEnds_eq ?_ rfl)
    · rw [State.resetPending, resetBefore_none_mono hle hno]
      rfl
    · rw [State.frameEnds, State.frameEnds, frameTicksLeft_playEntry hl hp hlt Config.taken,
        ← Nat.add_assoc]
      exact congrArg (· + _) (time_add_toNat hfits)

theorem clockRoom_frameEndStep {s : State} (hroom : ClockRoom s) (hl : Loaded s)
    (hp : s.phase = .drive) (hr : s.inputs.rst = false) (hend : s.idx.toNat = s.frameLen.toNat) :
    ClockRoom (frameEndStep s) := by
  refine hroom.of_commandEnds_eq (busy_iff.mpr (.inr hp)) hr id
    (commandEnds_of_frameEnds_eq ?_ rfl)
  rw [State.frameEnds, State.frameEnds, frameTicksLeft_end hl hp hend, frameTicksLeft_check rfl]
  rfl

theorem clockRoom_loopStep {s t : State} (hi : Inv s) (hroom : ClockRoom s) (hb : s.busy = true)
    (hr : s.inputs.rst = false) (h : loopStep Config.taken s = .next t) : ClockRoom t := by
  obtain ⟨hp, h⟩ | ⟨hp, h⟩ := loopStep_cases hb h
  · exact clockRoom_deadlineTest hroom hp hr h
  · obtain ⟨hlt, h⟩ | ⟨hend, rfl⟩ := driveStep_cases h
    · exact clockRoom_entryStep hroom (hi.loaded hb) hp hr hlt h
    · exact clockRoom_frameEndStep hroom (hi.loaded hb) hp hr hend

theorem deadlineFrom_toNat {now : Ticks} {d : Duration} (h : now.toNat + d.toNat < 2 ^ 64) :
    (deadlineFrom now d).toNat = now.toNat + d.toNat := by
  have := d.isLt
  rw [deadlineFrom, BitVec.toNat_add, BitVec.toNat_setWidth]
  omega

/-- An accepted launch has room up to the command's end (42_transmitter_session.md R204). -/
theorem clockRoom_launch {s : State} {w : BitVec 16} {d : Duration}
    (h : launchFits Config.taken s.time d = true) : ClockRoom (s.launch Config.taken w d) := by
  have hfits : s.time.toNat + loopTicks Config.taken d.toNat < 2 ^ 64 := by
    simpa [launchFits] using h
  have hle := le_loopTicks Config.taken d.toNat
  intro _ _ _
  rw [frameTicksLeft_check rfl, launch_deadline, launch_time, taken_tEnc, BitVec.add_zero,
    deadlineFrom_toNat (by omega), Nat.add_zero, Nat.add_sub_cancel_left]
  exact hfits

theorem clockRoom_accept {s t : State} {w : BitVec 16} {d : Duration}
    (h : accept Config.taken w d s = .next t) : ClockRoom t := by
  obtain ⟨-, rfl⟩ | ⟨-, -, rfl⟩ | ⟨-, -, hfits, rfl⟩ := accept_cases h
  · exact clockRoom_of_not_busy rfl
  · exact clockRoom_of_not_busy rfl
  · exact clockRoom_launch hfits

theorem clockRoom_drivePorts {s : State} {p : Inputs} {rest : List HostEvent} (hroom : ClockRoom s)
    (hr : s.inputs.rst = true → s.inReset = true) (hd : s.dueEvent = some (p, rest)) :
    ClockRoom (s.drivePorts p rest) := by
  intro hb hp hn
  exact hroom hb (rst_false_of_busy hr hb) ((resetPending_drivePorts hd hp).symm.trans hn)

/-- Settles O49: each of the six kinds of step keeps the end of the command in progress, or leaves none
in progress; an acceptance has checked its own. -/
theorem stepKeepsTheClocksRoom : Obligations.StepKeepsTheClocksRoom := by
  intro s t hi hroom h
  obtain ⟨-, -, rfl⟩ | ⟨p, rest, hr, hd, rfl⟩ | ⟨hr, -, hb, h⟩ | ⟨-, -, -, -, rfl⟩ |
    ⟨-, -, -, -, h⟩ | ⟨-, -, hb, -, h⟩ := step_cases h
  · exact clockRoom_of_not_busy rfl
  · exact clockRoom_drivePorts hroom hr hd
  · exact clockRoom_loopStep hi hroom hb hr h
  · exact clockRoom_of_not_busy rfl
  · exact clockRoom_accept h
  · refine clockRoom_of_not_busy ?_
    rw [(waitStep_cases h).1]
    exact hb

/-! ### The configuration -/

theorem cfgReady_false {s : State} (h : s.phase ≠ .unconfigured) : s.cfgReady = false := by
  rw [Bool.eq_false_iff, ne_eq, cfgReady_iff]
  exact fun hc => h hc.1

theorem cmdReady_false {s : State} (h : s.phase ≠ .idle) : s.cmdReady = false := by
  rw [Bool.eq_false_iff, ne_eq, cmdReady_iff]
  exact fun hc => h hc.1

/-- Settles O7: the meaning of CONFIGURE at a ready port, and the step at its handshake. -/
theorem configureTakesTheId : Obligations.ConfigureTakesTheId := by
  refine ⟨fun id s hp hr => ?_, fun s hp hr hv hd => ?_⟩
  · exact ⟨_, execConfigure_ready id hp hr, rfl, cfgReady_iff.mpr ⟨hp, hr⟩,
      cmdReady_false (by simp [hp]), cfgReady_false nofun, cmdReady_iff.mpr ⟨rfl, hr⟩⟩
  · exact ⟨_, step_configure hp hr hv hd, rfl⟩

/-- A step of the loop leaves the block configured. -/
theorem loopStep_phase_ne_unconfigured {tm : Config.Timing} {s t : State} (hb : s.busy = true)
    (h : loopStep tm s = .next t) : t.phase ≠ .unconfigured := by
  obtain ⟨-, h⟩ | ⟨hp, h⟩ := loopStep_cases hb h
  · obtain ⟨-, ⟨-, rfl⟩ | ⟨-, rfl⟩⟩ := deadlineTest_cases h <;> nofun
  · obtain ⟨-, h⟩ | ⟨-, rfl⟩ := driveStep_cases h
    · obtain ⟨e, -, ⟨_, -, rfl⟩ | ⟨-, -, rfl⟩⟩ := entryStep_cases h <;> simp [hp]
    · nofun

/-- After an acceptance a command is in progress or the block has faulted. -/
theorem accept_phase {tm : Config.Timing} {w : BitVec 16} {d : Duration} {s t : State}
    (h : accept tm w d s = .next t) : t.phase = .fault ∨ t.phase = .check := by
  obtain ⟨-, rfl⟩ | ⟨-, -, rfl⟩ | ⟨-, -, -, rfl⟩ := accept_cases h
  · exact .inl rfl
  · exact .inl rfl
  · exact .inr rfl

theorem accept_deviceId {tm : Config.Timing} {w : BitVec 16} {d : Duration} {s t : State}
    (h : accept tm w d s = .next t) : t.deviceId = s.deviceId := by
  obtain ⟨-, rfl⟩ | ⟨-, -, rfl⟩ | ⟨-, -, -, rfl⟩ := accept_cases h <;> rfl

/-- Settles O8: of the kinds of step that a configured block takes with `rst` 0, none writes the id. -/
theorem deviceIdIsTakenOnce : Obligations.DeviceIdIsTakenOnce := by
  refine fun s hp => ⟨cfgReady_false hp, fun id => execConfigure_notReady id (cfgReady_false hp),
    fun t hr h => ?_⟩
  obtain ⟨hrst, -, -⟩ | ⟨p, rest, -, -, rfl⟩ | ⟨-, -, hb, h⟩ | ⟨-, -, hu, -, -⟩ |
    ⟨-, -, -, -, h⟩ | ⟨-, -, -, -, h⟩ := step_cases h
  · simp [hr] at hrst
  · exact ⟨rfl, hp⟩
  · exact ⟨by rw [loopStep_eq hb h], loopStep_phase_ne_unconfigured hb h⟩
  · exact absurd hu hp
  · have hid := accept_deviceId h
    refine ⟨hid, ?_⟩
    obtain hphase | hphase := accept_phase h <;> simp [hphase]
  · rw [(waitStep_cases h).1]
    exact ⟨rfl, hp⟩

/-! ### Acceptance -/

/-- A launch does what an acceptance is said to do (42_transmitter_session.md R194). -/
theorem launch_accepted (s : State) (w : BitVec 16) (d : Duration) :
    Accepted s (s.launch Config.taken w d) (chanField w) (cmdField w) (effectiveStrength w) d := by
  refine ⟨?_, fun k hk => launch_read k hk, fun i hi => ?_⟩
  · apply State.ext <;> simp [deadlineFrom]
  · rw [launch_frame]
    exact read_writeFrame_above _ _ _ _ _ i hi

/-- A handshake whose word is legal and fits the clock launches the command. -/
theorem step_launch {s : State} (hp : s.phase = .idle) (hr : s.inputs.rst = false)
    (hv : s.inputs.cmdValid = true) (hd : s.dueEvent = none)
    (hc : legalChannel (chanField s.inputs.cmdWord) = true)
    (hk : legalCommand (cmdField s.inputs.cmdWord) = true) (hroom : roomFor s s.inputs.cmdDuration) :
    step s = .next ((s.lower (.command s.inputs.cmdWord s.inputs.cmdDuration)).launch
      Config.taken s.inputs.cmdWord s.inputs.cmdDuration) :=
  (step_accept hp hr hv hd).trans (accept_launch hc hk (launchFits_iff.mpr hroom))

theorem accept_illegalChannel {tm : Config.Timing} {w : BitVec 16} {d : Duration} {s : State}
    (hc : legalChannel (chanField w) = false) :
    accept tm w d s = .next (s.takeFault .illegalChannel) := by
  rw [accept, if_pos hc]

theorem accept_illegalCommand {tm : Config.Timing} {w : BitVec 16} {d : Duration} {s : State}
    (hc : legalChannel (chanField w) = true) (hk : legalCommand (cmdField w) = false) :
    accept tm w d s = .next (s.takeFault .illegalCommand) := by
  rw [accept, if_neg (by simp [hc]), if_pos hk]

theorem accept_refused {tm : Config.Timing} {w : BitVec 16} {d : Duration} {s : State}
    (hc : legalChannel (chanField w) = true) (hk : legalCommand (cmdField w) = true)
    (hf : launchFits tm s.time d = false) : accept tm w d s = .refused .clockOverflow := by
  simp [accept, hc, hk, hf]

/-- Settles O12: the three ways an acceptance can go, in the order of the checks. -/
theorem acceptanceFollowsTheWord : Obligations.AcceptanceFollowsTheWord := by
  intro s hp hr hv hd w
  refine ⟨fun hc => ?_, fun hc hk => ?_, fun hc hk1 hk3 hroom => ?_⟩
  · rw [← legalChannel_false_iff] at hc
    exact ⟨_, (step_accept hp hr hv hd).trans (accept_illegalChannel hc), rfl⟩
  · rw [← legalChannel_iff] at hc
    rw [← legalCommand_false_iff] at hk
    exact ⟨_, (step_accept hp hr hv hd).trans (accept_illegalCommand hc hk), rfl⟩
  · rw [← legalChannel_iff] at hc
    have hk := (legalCommand_iff _).mpr ⟨hk1, hk3⟩
    exact ⟨_, step_launch hp hr hv hd hc hk hroom, launch_accepted _ _ _⟩

/-- What a command's meaning is where the command port is not ready. -/
theorem exec_command_notReady {s : State} (h : s.cmdReady = false) {w : BitVec 16} {d : Duration}
    {i : Instr} (hw : decodeOffer (.command w d) = .legal i) : exec i s = .next s :=
  (exec_of_decode hw s).trans (offerCommand_notReady w d h)

/-- Settles O14: outside IDLE the port is not ready. -/
theorem commandsAreNotTakenOutsideIdle : Obligations.CommandsAreNotTakenOutsideIdle := by
  intro chan strength d s hp
  have hnot := cmdReady_false hp
  exact ⟨hnot, offerCommand_notReady _ d hnot, offerCommand_notReady _ d hnot,
    offerCommand_notReady _ d hnot⟩

/-- A command word with legal fields is refused where its end does not fit the clock. -/
theorem offerCommand_refused {chan cmd : BitVec 4} {strength : BitVec 8} {d : Duration} {s : State}
    (hc : legalChannel chan = true) (hk : legalCommand cmd = true) (hp : s.phase = .idle)
    (hr : s.inputs.rst = false) (hroom : ¬ roomFor s d) :
    offerCommand (commandWord chan cmd strength) d s = .refused .clockOverflow := by
  rw [offerCommand_ready _ d hp hr]
  exact accept_refused (by simpa using hc) (by simpa using hk) (launchFits_false hroom)

/-- Settles O15: each command's word has legal fields. -/
theorem launchPastTheClockIsRefused : Obligations.LaunchPastTheClockIsRefused :=
  fun _ _ _ _ hc hp hr hroom =>
    ⟨offerCommand_refused hc rfl hp hr hroom, offerCommand_refused hc rfl hp hr hroom,
      offerCommand_refused hc rfl hp hr hroom⟩

/-- Settles O16: the step transfers the offer of the ready port. -/
theorem stepRunsTheDecodedInstruction : Obligations.StepRunsTheDecodedInstruction := by
  refine fun s i hr hd => ⟨fun hp hv hi => ?_, fun hp hv hi => ?_⟩
  · rw [step_transfer hd (handshake_eq_some.mpr (.inr ⟨hp, hr, hv, rfl⟩)), hi]
    rfl
  · rw [step_transfer hd (handshake_eq_some.mpr (.inl ⟨hp, hr, hv, rfl⟩)), hi]
    rfl

/-- What a step of an unconfigured block can do while `rst` is 0: the host changes its ports, the id on
offer is taken, or time passes. -/
theorem step_cases_of_unconfigured {s t : State} (hp : s.phase = .unconfigured)
    (hr : s.inputs.rst = false) (h : step s = .next t) :
    (∃ p rest, s.dueEvent = some (p, rest) ∧ t = s.drivePorts p rest) ∨
    (s.inputs.cfgValid = true ∧ t = { s with
      inputs := { s.inputs with cfgValid := false }, deviceId := s.inputs.cfgId, phase := .idle }) ∨
    t = { s with time := t.time, host := t.host, draws := t.draws } := by
  obtain ⟨hrst, -, -⟩ | ⟨p, rest, -, hd, rfl⟩ | ⟨-, -, hb, -⟩ | ⟨-, -, -, hv, rfl⟩ |
    ⟨-, -, hidle, -, -⟩ | ⟨-, -, -, -, h⟩ := step_cases h
  · simp [hr] at hrst
  · exact .inl ⟨p, rest, hd, rfl⟩
  · simp [busy_iff, hp] at hb
  · exact .inr (.inl ⟨hv, rfl⟩)
  · simp [hp] at hidle
  · exact .inr (.inr (waitStep_cases h).1)

/-- Settles O17: none of the three kinds of step of an unconfigured block takes a command. -/
theorem unconfiguredBlockTakesNoCommand : Obligations.UnconfiguredBlockTakesNoCommand := by
  intro s hp
  have hnot : s.cmdReady = false := cmdReady_false (by simp [hp])
  refine ⟨hnot, by simp [State.faulted, hp], fun hr => cfgReady_iff.mpr ⟨hp, hr⟩,
    fun hi => hi.pinLow (by simp [hp]), fun w d i hw => exec_command_notReady hnot hw,
    fun t hr h => ?_⟩
  obtain ⟨p, rest, hd, rfl⟩ | ⟨hv, rfl⟩ | ht := step_cases_of_unconfigured hp hr h
  · exact ⟨rfl, rfl, rfl, by simp [hr], rfl, .inl hp, by simp [hd]⟩
  · exact ⟨rfl, rfl, rfl, rfl, rfl, .inr ⟨hv, rfl⟩, fun _ => ⟨rfl, rfl, rfl⟩⟩
  · rw [ht]
    exact ⟨rfl, rfl, rfl, rfl, rfl, .inl hp, fun _ => ⟨rfl, rfl, rfl⟩⟩

/-! ### The deadline test -/

theorem step_check {s : State} (hp : s.phase = .check) (hr : s.inputs.rst = false)
    (hd : s.dueEvent = none) : step s = deadlineTest Config.taken s := by
  rw [step_loop (busy_iff.mpr (.inl hp)) hr hd, loopStep_check hp]

theorem deadlineTest_taken_pass {s : State} (h : s.time.toNat < s.deadline.toNat) :
    deadlineTest Config.taken s = .next { s with level := low, phase := .drive, idx := 0#7 } := by
  rw [deadlineTest_pass (tm := Config.taken) s.time.isLt h, taken_tChk, BitVec.add_zero]

theorem deadlineTest_taken_fail {s : State} (h : s.deadline.toNat ≤ s.time.toNat) :
    deadlineTest Config.taken s = .next { s with phase := .idle } := by
  rw [deadlineTest_fail (tm := Config.taken) s.time.isLt h, taken_tChk, BitVec.add_zero]

/-- Settles O32: the step is the test, which takes no time. -/
theorem deadlineTestBranches : Obligations.DeadlineTestBranches := fun _ hp hr hd =>
  ⟨fun hlt => (step_check hp hr hd).trans (deadlineTest_taken_pass hlt),
    fun hge => (step_check hp hr hd).trans (deadlineTest_taken_fail hge),
    fun hi => hi.pinLow (by simp [hp])⟩

/-- A command of no duration fits on any clock. -/
theorem roomFor_zero (s : State) : roomFor s 0#32 := s.time.isLt

/-- A launch of no duration leaves the deadline at the present time. -/
theorem launch_deadline_zero (s : State) (w : BitVec 16) :
    (s.launch Config.taken w 0#32).deadline = s.time := by
  simp [deadlineFrom]

/-- The step after a launch of no duration ends the command. -/
theorem step_launch_zero {s : State} (hr : s.inputs.rst = false) (hd : s.dueEvent = none)
    (w : BitVec 16) :
    step (s.launch Config.taken w 0#32) =
      .next { s.launch Config.taken w 0#32 with phase := .idle } := by
  have htime : (s.launch Config.taken w 0#32).time = s.time := by simp
  have hdue : (s.launch Config.taken w 0#32).dueEvent = none := by
    rwa [State.dueEvent, htime]
  refine (step_check (s := s.launch Config.taken w 0#32) rfl hr hdue).trans
    (deadlineTest_taken_fail ?_)
  rw [launch_deadline_zero, htime]

/-- Settles O35: the launch of no duration leaves the deadline at the present time, so the next test
ends the command. -/
theorem zeroDurationSendsNothing : Obligations.ZeroDurationSendsNothing := by
  intro s hp hr hv hd hzero w
  refine ⟨fun hc hk => ?_, fun hc => ?_, fun hc hk => ?_⟩
  · have hstep := step_launch hp hr hv hd hc hk (hzero ▸ roomFor_zero s)
    rw [hzero] at hstep
    exact ⟨_, hstep, launch_deadline_zero _ _, launch_accepted _ _ _,
      step_launch_zero (s := s.lower (.command w 0#32)) hr hd w⟩
  · exact ⟨_, (step_accept hp hr hv hd).trans (accept_illegalChannel hc), rfl, rfl⟩
  · exact ⟨_, (step_accept hp hr hv hd).trans (accept_illegalCommand hc hk), rfl, rfl⟩

/-- Settles O37: a busy block takes the loop's steps, and none of its ports is ready. -/
theorem busyStepIsALoopStep : Obligations.BusyStepIsALoopStep := fun _ hb hr hd =>
  ⟨step_loop hb hr hd, handshake_none_of_busy hb⟩

/-! ### Waiting -/

/-- A handshake takes no time and leaves the phase. -/
theorem step_handshake_time_phase {s t : State} (hd : s.dueEvent = none) (hh : s.handshake ≠ none)
    (h : step s = .next t) : t.time = s.time ∧ t.phase ≠ s.phase := by
  obtain ⟨o, ho⟩ := Option.ne_none_iff_exists'.mp hh
  obtain ⟨hp, hr, hv, -⟩ | ⟨hp, hr, hv, -⟩ := handshake_eq_some.mp ho
  · rw [step_configure hp hr hv hd] at h
    cases h
    exact ⟨rfl, by simp [hp]⟩
  · rw [step_accept hp hr hv hd] at h
    obtain ⟨hge, hle⟩ := accept_time_le h
    refine ⟨BitVec.eq_of_toNat_eq (le_antisymm hle hge), ?_⟩
    obtain hphase | hphase := accept_phase h <;> simp [hphase, hp]

theorem waitStep_of_no_plan {s : State} (h : s.host = []) : waitStep s = .next s.waitFreely := by
  rw [waitStep, h]

/-- Settles O40: with no handshake pending the step is a wait, with one pending it is the handshake. -/
theorem waitingChangesOnlyTime : Obligations.WaitingChangesOnlyTime := by
  intro s hb hr hd
  have hwait : s.handshake = none → step s = waitStep s := step_wait (by simp [hr]) hd hb
  refine ⟨fun hh t h => waitStep_cases ((hwait hh).symm.trans h),
    fun hh hhost => ⟨_, (hwait hh).trans (waitStep_of_no_plan hhost)⟩,
    fun hh t h => step_handshake_time_phase hd hh h, fun hi => hi.pinLow fun hp => ?_⟩
  simp [State.busy, hp] at hb

/-! ### The end of a run -/

theorem runOver_iff {program : List Line} {s : State} :
    s.runOver program = true ↔ s.host = [] ∧ s.offering = false ∧
      (s.phase = .idle ∨ program = [] ∧ s.phase = .unconfigured) := by
  simp [State.runOver, and_assoc]

/-- Nothing is transferred where nothing is offered. -/
theorem handshake_none_of_not_offering {s : State} (h : s.offering = false) :
    s.handshake = none := by
  have hvalid : s.inputs.cfgValid = false ∧ s.inputs.cmdValid = false := by
    simpa [State.offering] using h
  simp [State.handshake, hvalid]

/-- Settles O57: the block rests in IDLE or UNCONFIGURED, where the invariant gives the pin and the
cause. -/
theorem runOverRestsLow : Obligations.RunOverRestsLow := by
  refine ⟨fun program s hi hover => ?_, fun s h => ?_⟩
  · obtain ⟨hhost, hoffer, hphase⟩ := runOver_iff.mp hover
    have hrest : s.phase ≠ .drive ∧ s.phase ≠ .check ∧ s.phase ≠ .fault := by
      obtain hp | ⟨-, hp⟩ := hphase <;> simp [hp]
    obtain ⟨hdrive, hcheck, hfault⟩ := hrest
    exact ⟨hphase, hhost, hi.pinLow hdrive, hi.cause_none hfault, by simp [State.faulted, hfault],
      by simp [State.busy, hcheck, hdrive], handshake_none_of_not_offering hoffer⟩
  · cases h
    rfl

/-! ### A frame of the loop -/

/-- The frame of the operand registers. -/
def State.operandFrame (s : State) : List Entry := encodeFrame s.deviceId s.chan s.cmd s.strength

@[simp] theorem operandFrame_length (s : State) : s.operandFrame.length = 89 :=
  encodeFrame_length ..

/-- The segments of `n` frames of the operand registers, back to back. -/
def State.frameTrace (s : State) (n : Nat) : List Segment :=
  (List.replicate n (frameSegments s.operandFrame)).flatten

theorem frameTrace_succ (s : State) (n : Nat) :
    s.frameTrace (n + 1) = s.frameTrace n ++ frameSegments s.operandFrame := by
  simp [State.frameTrace, List.replicate_succ']

@[simp] theorem traceTicks_frameTrace (s : State) (n : Nat) :
    traceTicks (s.frameTrace n) = n * 47444 := by
  induction n with
  | zero => rfl
  | succ n ih =>
    have hframe : traceTicks (frameSegments s.operandFrame) = 47444 :=
      (traceTicks_segmentsFrom low _).trans (encodeFrame_sum ..)
    rw [frameTrace_succ, traceTicks_append, ih, hframe, Nat.succ_mul]

/-- What `n` rounds of the loop, each a test passed and a frame played, make of state `s`: `n` frames
more on the trace, the pin low, the command as it was. The starts are given where there are no
overheads. -/
structure AfterFrames (tm : Config.Timing) (n : Nat) (s t : State) : Prop where
  keeps : t = { s with
    idx := t.idx, level := t.level, txOut := low, frames := s.frames + n,
    trace := s.trace ++ s.frameTrace n, starts := t.starts,
    time := s.time + BitVec.ofNat 64 (n * framePeriod tm) }
  starts : tm = Config.taken → t.starts = s.starts ++ startsFrom s.time (s.frameTrace n)

theorem afterFrames_zero (tm : Config.Timing) {s : State} (htx : s.txOut = low) :
    AfterFrames tm 0 s s := by
  refine ⟨?_, fun _ => (List.append_nil _).symm⟩
  apply State.ext <;> simp [htx, State.frameTrace]

section
variable {tm : Config.Timing} {n : Nat} {s t : State} (h : AfterFrames tm n s t)
include h

theorem AfterFrames.phase_eq : t.phase = s.phase := by rw [h.keeps]

theorem AfterFrames.deadline_eq : t.deadline = s.deadline := by rw [h.keeps]

theorem AfterFrames.time_eq : t.time = s.time + BitVec.ofNat 64 (n * framePeriod tm) := by
  rw [h.keeps]

theorem AfterFrames.time_toNat (hroom : s.time.toNat + n * framePeriod tm < 2 ^ 64) :
    t.time.toNat = s.time.toNat + n * framePeriod tm := by
  rw [h.time_eq, time_add_toNat hroom]

theorem AfterFrames.trace_eq : t.trace = s.trace ++ s.frameTrace n := by rw [h.keeps]

theorem AfterFrames.operandFrame_eq : t.operandFrame = s.operandFrame := by rw [h.keeps]; rfl

theorem AfterFrames.closedLoop (hc : s.closedLoop = true) : t.closedLoop = true := by
  rw [h.keeps]
  exact hc

theorem AfterFrames.loaded (hl : Loaded s) : Loaded t := by
  rw [h.keeps]
  exact { hl with }

/-- One more round. -/
theorem AfterFrames.succ {u : State} (h1 : AfterFrames tm 1 t u) : AfterFrames tm (n + 1) s u := by
  have htrace : s.frameTrace n ++ t.frameTrace 1 = s.frameTrace (n + 1) := by
    rw [frameTrace_succ s, ← h.operandFrame_eq]
    simp [State.frameTrace]
  refine ⟨?_, fun htm => ?_⟩
  · have hu := h1.keeps
    rw [h.trace_eq, List.append_assoc, htrace, h.time_eq, BitVec.add_assoc, ← BitVec.ofNat_add,
      ← Nat.add_mul, h.keeps] at hu
    exact hu
  · rw [h1.starts htm, h.starts htm, h.time_eq, htm, framePeriod_taken, ← traceTicks_frameTrace s,
      List.append_assoc, ← startsFrom_append, htrace]

end

/-- With no overheads the segments of DRIVE follow each other without a break (log 31). -/
theorem playList_taken_starts (l : List Entry) (s : State) :
    (State.playList Config.taken l s).starts =
      s.starts ++ startsFrom s.time (segmentsFrom s.level l) := by
  induction l generalizing s with
  | nil => exact (List.append_nil _).symm
  | cons e rest ih =>
    rw [playList_cons, ih, segmentsFrom, startsFrom]
    simp [State.playEntry]

/-- The ticks of a frame with the gaps after its entries (41_pulse_driver.md R179). -/
theorem sum_holdTicks_operandFrame (tm : Config.Timing) (s : State) :
    tm.tChk + (s.operandFrame.map (holdTicks tm)).sum = framePeriod tm := by
  have hsum : (s.operandFrame.map BitVec.toNat).sum = 47444 := encodeFrame_sum ..
  rw [sum_holdTicks, hsum, operandFrame_length, framePeriod]
  show tm.tChk + (47444 + 89 * tm.tGap) = 47444 + 89 * tm.tGap + tm.tChk
  omega

/-- What a passed deadline test leaves. -/
def State.frameStarted (tm : Config.Timing) (s : State) : State :=
  { s with
    time := s.time + BitVec.ofNat 64 tm.tChk, level := low, phase := .drive, idx := 0#7 }

/-- A round of the loop: the test, the 89 entries and the frame end (42_transmitter_session.md R197). -/
theorem loopRun_round {tm : Config.Timing} {s : State} (hp : s.phase = .check) (hl : Loaded s)
    (hc : s.closedLoop = true) (hlt : s.time.toNat + tm.tChk < s.deadline.toNat)
    (hroom : s.time.toNat + framePeriod tm < 2 ^ 64) :
    loopRun tm 91 s =
      .next { State.playList tm s.operandFrame (s.frameStarted tm) with idx := 89#7 } := by
  have hperiod := sum_holdTicks_operandFrame tm s
  have htest : loopStep tm s = .next (s.frameStarted tm) :=
    (loopStep_check hp).trans (deadlineTest_pass (by omega) hlt)
  have hholds : HoldsFromIdx (s.frameStarted tm) s.operandFrame := by
    refine ⟨?_, fun k hk => ?_⟩
    · rw [operandFrame_length]
      exact (congrArg BitVec.toNat hl.lengthIs89).symm
    · rw [operandFrame_length] at hk
      exact (hl.entries k hk).trans (by rw [State.frameStarted, BitVec.zero_add])
  have hcap : (s.frameStarted tm).frameLen.toNat ≤ 127 :=
    (congrArg BitVec.toNat hl.lengthIs89).trans_le (by decide)
  have htime : (s.frameStarted tm).time.toNat = s.time.toNat + tm.tChk := time_add_toNat (by omega)
  have hplay := loopRun_eq_playList (tm := tm) rfl hholds hcap hc (by omega)
  rw [operandFrame_length] at hplay
  rw [loopRun_of_step htest, hplay]
  rfl

theorem loopRun_one_frame {tm : Config.Timing} {s : State} (hp : s.phase = .check)
    (hl : Loaded s) (hc : s.closedLoop = true) (hlt : s.time.toNat + tm.tChk < s.deadline.toNat)
    (hroom : s.time.toNat + framePeriod tm < 2 ^ 64) :
    ∃ t, loopRun tm 91 s = .next t ∧ AfterFrames tm 1 s t := by
  have hone : s.frameTrace 1 = segmentsFrom low s.operandFrame := by
    simp [State.frameTrace, frameSegments]
  refine ⟨_, loopRun_round hp hl hc hlt hroom, ?_, ?_⟩
  · rw [playList_eq, playList_time, hone, Nat.one_mul, ← sum_holdTicks_operandFrame tm s,
      BitVec.ofNat_add, ← BitVec.add_assoc, State.frameStarted, ← hp]
  · intro htm
    dsimp only
    rw [hone, htm, playList_taken_starts, State.frameStarted, taken_tChk, BitVec.add_zero]

/-- The rounds of the loop, as long as each test comes before the deadline. -/
theorem loopRun_frames {tm : Config.Timing} {s : State} (hp : s.phase = .check) (hl : Loaded s)
    (htx : s.txOut = low) (hc : s.closedLoop = true) (n : Nat)
    (hlt : ∀ j < n, s.time.toNat + (j * framePeriod tm + tm.tChk) < s.deadline.toNat)
    (hroom : s.time.toNat + n * framePeriod tm < 2 ^ 64) :
    ∃ t, loopRun tm (91 * n) s = .next t ∧ AfterFrames tm n s t := by
  induction n with
  | zero => exact ⟨s, rfl, afterFrames_zero tm htx⟩
  | succ n ih =>
    rw [Nat.succ_mul] at hroom
    obtain ⟨u, hrun, hu⟩ := ih (fun j hj => hlt j (by omega)) (by omega)
    have htime := hu.time_toNat (by omega)
    have hltn := hlt n (by omega)
    obtain ⟨t, hlast, ht⟩ := loopRun_one_frame (tm := tm) (hu.phase_eq.trans hp) (hu.loaded hl)
      (hu.closedLoop hc) (by rw [htime, hu.deadline_eq]; omega) (by omega)
    exact ⟨t, (loopRun_add hrun).trans hlast, hu.succ ht⟩

/-- The rounds of a command, and the test that ends it (42_transmitter_session.md R203). -/
theorem loopRun_command {tm : Config.Timing} {s : State} (hp : s.phase = .check) (hl : Loaded s)
    (htx : s.txOut = low) (hc : s.closedLoop = true) {d : Nat}
    (hd : d = s.deadline.toNat - s.time.toNat)
    (hroom : s.time.toNat + loopTicks tm d < 2 ^ 64) :
    ∃ t, loopRun tm (91 * framesFor tm d) s = .next t ∧ AfterFrames tm (framesFor tm d) s t ∧
      t.time.toNat + tm.tChk = s.time.toNat + loopTicks tm d ∧
      loopStep tm t =
        .next { t with time := t.time + BitVec.ofNat 64 tm.tChk, phase := .idle } := by
  have hle := le_loopTicks tm d
  have hticks : loopTicks tm d = framesFor tm d * framePeriod tm + tm.tChk := rfl
  obtain ⟨t, hrun, ht⟩ := loopRun_frames (tm := tm) hp hl htx hc (framesFor tm d)
    (fun j hj => by have := lt_of_lt_framesFor hj; omega) (by omega)
  have htime := ht.time_toNat (by omega)
  refine ⟨t, hrun, ht, by omega, (loopStep_check (ht.phase_eq.trans hp)).trans
    (deadlineTest_fail (by omega) ?_)⟩
  rw [ht.deadline_eq]
  omega

/-- Settles O34: the rounds of the command, then the test that ends it. -/
theorem repeatLoopWithAnyOverheads : Obligations.RepeatLoopWithAnyOverheads := by
  intro tm s hp hl htx hc hroom d frame
  obtain ⟨u, hrun, hu, htime, hend⟩ := loopRun_command hp hl htx hc rfl hroom
  have hlast : loopRun tm (91 * framesFor tm d + 1) s = .next _ :=
    (loopRun_add hrun).trans (loopRun_of_step hend)
  have hle := le_loopTicks tm d
  have hframes := Nat.mul_le_mul_left (framesFor tm d) (le_framePeriod tm)
  have hticks : loopTicks tm d = framesFor tm d * framePeriod tm + tm.tChk := rfl
  have hfinal : (u.time + BitVec.ofNat 64 tm.tChk).toNat = s.time.toNat + loopTicks tm d :=
    (time_add_toNat (htime.trans_lt hroom)).trans htime
  refine ⟨framesFor tm d, _, _, hlast, rfl, ?_, ?_, hu.trace_eq, fun hzero => ?_, framesFor_pos,
    framesFor_le tm d, ?_, ?_⟩
  · rw [hu.keeps]
  · rw [hu.keeps]
  · rw [hzero, framesFor_zero]
  · exact (Nat.add_le_add_left hle _).trans_eq hfinal.symm
  · exact (Nat.add_le_add_left (by omega) _).trans_eq hfinal.symm

/-! ### A command from its handshake to its end -/

theorem loopRun_of_not_busy {tm : Config.Timing} {s : State} (hb : s.busy = false) (k : Nat) :
    loopRun tm k s = .next s := by
  have hstep : loopStep tm s = .next s := by
    unfold loopStep
    split
    next hp => simp [State.busy, hp] at hb
    next hp => simp [State.busy, hp] at hb
    next => rfl
  induction k with
  | zero => rfl
  | succ k ih => rw [loopRun_of_step hstep, ih]

/-- The machine runs the loop while a command is in progress, when the host plans no port change for a
fixed time (42_transmitter_session.md R210). -/
theorem core_run_of_loopRun {k m : Nat} {s t : State} (hr : s.inputs.rst = false)
    (hc : s.closedLoop = true) (h : loopRun Config.taken k s = .next t) (ht : t.busy = true) :
    core.run (k + m) s = core.run m t := by
  induction k generalizing s with
  | zero =>
    cases h
    rw [Nat.zero_add]
  | succ k ih =>
    have hb : s.busy = true := by
      by_contra hb
      rw [loopRun_of_not_busy (by simpa using hb)] at h
      cases h
      exact hb ht
    cases hs : loopStep Config.taken s with
    | next u =>
      obtain ⟨hinputs, hhost, -⟩ := loopStep_frame hb hs
      have hcu : u.closedLoop = true := by rwa [State.closedLoop, hhost]
      rw [loopRun_of_step hs] at h
      rw [Nat.add_right_comm,
        core_run_of_step ((step_loop hb hr (dueEvent_of_closedLoop hc)).trans hs)]
      exact ih (hinputs ▸ hr) hcu h
    | fault f =>
      rw [loopRun, hs] at h
      cases h
    | refused r =>
      rw [loopRun, hs] at h
      cases h

/-- The segments of a trace that plays without a break from time `t` on lie between `t` and its end. -/
theorem startsFrom_zip_range {t : Ticks} {tr : List Segment} (h : t.toNat + traceTicks tr < 2 ^ 64) :
    ∀ p ∈ (startsFrom t tr).zip tr,
      t.toNat ≤ p.1.toNat ∧ p.1.toNat + p.2.ticks.toNat ≤ t.toNat + traceTicks tr := by
  induction tr generalizing t with
  | nil => simp [startsFrom]
  | cons g rest ih =>
    rw [traceTicks] at h ⊢
    have hnext : (t + g.ticks.setWidth 64).toNat = t.toNat + g.ticks.toNat := by
      have := g.ticks.isLt
      rw [BitVec.toNat_add, BitVec.toNat_setWidth]
      omega
    intro p hp
    rw [startsFrom, List.zip_cons_cons, List.mem_cons] at hp
    obtain rfl | hp := hp
    · dsimp only
      omega
    · have hrange := ih (t := t + g.ticks.setWidth 64) (by omega) p hp
      omega

/-- Segments that play without a break from now to the time of state `t`, after segments that have run
their time. -/
theorem waveform_of_played {s t : State} {tr : List Segment} (he : s.traceEnded)
    (htrace : t.trace = s.trace ++ tr) (hstarts : t.starts = s.starts ++ startsFrom s.time tr)
    (htime : t.time.toNat = s.time.toNat + traceTicks tr) :
    t.traceEnded ∧ ∀ x, t.waveform x =
      if x < s.time.toNat then s.waveform x else waveformFrom s.time.toNat tr x := by
  have hroom : s.time.toNat + traceTicks tr < 2 ^ 64 := htime ▸ t.time.isLt
  have hrange := startsFrom_zip_range hroom
  have hzip : t.starts.zip t.trace = s.starts.zip s.trace ++ (startsFrom s.time tr).zip tr := by
    rw [hstarts, htrace, List.zip_append he.1]
  refine ⟨⟨?_, fun p hp => ?_⟩, fun x => ?_⟩
  · rw [hstarts, htrace, List.length_append, List.length_append, he.1, startsFrom_length]
  · rw [hzip, List.mem_append] at hp
    obtain hp | hp := hp
    · have hend := he.2 p hp
      omega
    · exact (hrange p hp).2.trans_eq htime.symm
  · rw [State.waveform, hzip]
    split
    next hx =>
      refine waveform_append_left _ fun p hp => ?_
      have hge := (hrange p hp).1
      rw [Bool.eq_false_iff, ne_eq, lastsAt_iff]
      omega
    next hx =>
      rw [waveform_append_right _ (lastsAt_of_traceEnded he (by omega)),
        waveform_startsFrom _ _ _ hroom]

/-- The rest of a command, with no overheads: its frames, then the test that ends it. -/
theorem core_run_command {s : State} (hp : s.phase = .check) (hr : s.inputs.rst = false)
    (hl : Loaded s) (htx : s.txOut = low) (hc : s.closedLoop = true) {d : Nat}
    (hd : d = s.deadline.toNat - s.time.toNat)
    (hroom : s.time.toNat + loopTicks Config.taken d < 2 ^ 64) :
    ∃ t, core.run (91 * framesFor Config.taken d + 1) s = .next { t with phase := .idle } ∧
      AfterFrames Config.taken (framesFor Config.taken d) s t := by
  obtain ⟨t, hrun, ht, -, hend⟩ := loopRun_command hp hl htx hc hd hroom
  have hb : t.busy = true := busy_iff.mpr (.inl (ht.phase_eq.trans hp))
  have hrt : t.inputs.rst = false := by rwa [ht.keeps]
  have hdt := dueEvent_of_closedLoop (ht.closedLoop hc)
  rw [taken_tChk, BitVec.add_zero] at hend
  exact ⟨t, (core_run_of_loopRun hr hc hrun hb).trans
    ((core_run_of_step ((step_loop hb hrt hdt).trans hend)).trans (core_run_zero _)), ht⟩

/-- The fields of a word that decodes are legal. -/
theorem legal_of_decodeCommand {w : BitVec 16} {d : Duration} {i : Instr}
    (h : decodeCommand w d = .legal i) :
    legalChannel (chanField w) = true ∧ legalCommand (cmdField w) = true := by
  obtain ⟨hchan, ⟨hk, -⟩ | ⟨hk, -⟩ | ⟨hk, -⟩⟩ := decodeCommand_legal h <;>
    exact ⟨hchan, by rw [hk]; rfl⟩

/-- A launch that has room leaves its duration until the deadline. -/
theorem launch_ticksLeft {s : State} (w : BitVec 16) {d : Duration} (hroom : roomFor s d) :
    d.toNat = (s.launch Config.taken w d).deadline.toNat -
      (s.launch Config.taken w d).time.toNat := by
  unfold roomFor at hroom
  rw [launch_deadline, launch_time, taken_tEnc, BitVec.add_zero, deadlineFrom_toNat (by omega)]
  omega

/-- Settles O33: the handshake launches the command, the loop plays its frames, and the last test ends
it. -/
theorem commandPlaysCeilFrames : Obligations.CommandPlaysCeilFrames := by
  intro s i hp hr hv hi htx hc hroom w n frame
  obtain ⟨hchan, hcmd⟩ := legal_of_decodeCommand hi
  have hstep := step_launch hp hr hv (dueEvent_of_closedLoop hc) hchan hcmd hroom
  have hfits : s.time.toNat + n * 47444 < 2 ^ 64 := hroom
  have hn : framesFor Config.taken s.inputs.cmdDuration.toNat = n := framesFor_taken _
  set u := (s.lower (.command w s.inputs.cmdDuration)).launch Config.taken w s.inputs.cmdDuration
  have hut : u.time = s.time := BitVec.add_zero _
  obtain ⟨t, hrun, ht⟩ := core_run_command (s := u) rfl hr (launch_loaded hchan hcmd) htx hc
    (launch_ticksLeft _ hroom) (by rw [loopTicks_taken, hut]; exact hroom)
  rw [hn] at hrun ht
  have htime : t.time.toNat = s.time.toNat + n * 47444 := by
    rw [ht.time_toNat (by rw [hut, framePeriod_taken]; exact hfits), hut, framePeriod_taken]
  have htrace : t.trace = s.trace ++ u.frameTrace n := ht.trace_eq
  have hstarts : t.starts = s.starts ++ startsFrom s.time (u.frameTrace n) := by
    rw [ht.starts rfl, hut]
    rfl
  refine ⟨{ t with phase := .idle }, ?_, rfl, ?_, ?_, ?_, htime, htrace, fun he => ?_, ?_, ?_⟩
  · rw [show 2 + 91 * n = 91 * n + 1 + 1 by omega, core_run_of_step hstep]
    exact hrun
  · rw [ht.keeps]
  · rw [ht.keeps]
    rfl
  · rw [ht.keeps]
    exact Nat.zero_add n
  · exact waveform_of_played he htrace hstarts
      (htime.trans (congrArg (s.time.toNat + ·) (traceTicks_frameTrace u n).symm))
  · rw [ht.keeps]
    rfl
  · rw [ht.keeps]
    rfl

/-! ### The loop does not read the input ports -/

theorem deadlineTest_refused {tm : Config.Timing} {s : State}
    (h : ¬ s.time.toNat + tm.tChk < 2 ^ 64) : deadlineTest tm s = .refused .clockWrap := by
  rw [deadlineTest, advance_eq_none.mpr (Nat.not_lt.mp h)]

/-- Entry step that a reset cuts short (70_reset_and_hazards.md R292). -/
theorem entryStep_cut {tm : Config.Timing} {s : State} {e : Entry} {cut : Ticks}
    (he : s.frame.read s.idx = e)
    (hcut : resetBefore (s.time.toNat + holdTicks tm e) s.time s.host = some cut) :
    entryStep tm s = .next { s with
      txOut := s.level, trace := s.trace ++ [⟨s.level, e⟩], starts := s.starts ++ [s.time],
      time := cut } := by
  subst he
  unfold entryStep
  dsimp only
  rw [hcut]
  rfl

/-- Entry step whose hold does not fit the clock (log 14). -/
theorem entryStep_refused {tm : Config.Timing} {s : State} {e : Entry}
    (he : s.frame.read s.idx = e)
    (hno : resetBefore (s.time.toNat + holdTicks tm e) s.time s.host = none)
    (hroom : ¬ s.time.toNat + holdTicks tm e < 2 ^ 64) :
    entryStep tm s = .refused .clockWrap := by
  subst he
  have hadv : ((s.pinSet s.level).emit s.level (s.frame.read s.idx)).advance
      (holdTicks tm (s.frame.read s.idx)) = none := advance_eq_none.mpr (Nat.not_lt.mp hroom)
  unfold entryStep
  dsimp only
  rw [hno]
  dsimp only
  rw [hadv]

theorem deadlineTest_withInputs (tm : Config.Timing) (s : State) (p : Inputs) :
    deadlineTest tm { s with inputs := p } = withInputs p (deadlineTest tm s) := by
  by_cases hroom : s.time.toNat + tm.tChk < 2 ^ 64
  · by_cases hlt : s.time.toNat + tm.tChk < s.deadline.toNat
    · rw [deadlineTest_pass hroom hlt, deadlineTest_pass (s := { s with inputs := p }) hroom hlt]
      rfl
    · have hge := Nat.not_lt.mp hlt
      rw [deadlineTest_fail hroom hge, deadlineTest_fail (s := { s with inputs := p }) hroom hge]
      rfl
  · rw [deadlineTest_refused hroom, deadlineTest_refused (s := { s with inputs := p }) hroom]
    rfl

theorem entryStep_withInputs (tm : Config.Timing) (s : State) (p : Inputs) :
    entryStep tm { s with inputs := p } = withInputs p (entryStep tm s) := by
  cases hreset : resetBefore (s.time.toNat + holdTicks tm (s.frame.read s.idx)) s.time s.host with
  | some cut =>
    rw [entryStep_cut rfl hreset, entryStep_cut (s := { s with inputs := p }) rfl hreset]
    rfl
  | none =>
    by_cases hroom : s.time.toNat + holdTicks tm (s.frame.read s.idx) < 2 ^ 64
    · rw [entryStep_eq rfl hreset hroom,
        entryStep_eq (s := { s with inputs := p }) rfl hreset hroom]
      rfl
    · rw [entryStep_refused rfl hreset hroom,
        entryStep_refused (s := { s with inputs := p }) rfl hreset hroom]
      rfl

theorem driveStep_withInputs (tm : Config.Timing) (s : State) (p : Inputs) :
    driveStep tm { s with inputs := p } = withInputs p (driveStep tm s) := by
  unfold driveStep
  dsimp only
  split
  · exact entryStep_withInputs tm s p
  · split <;> rfl

/-- Settles O53: the step is the test or the driver, and neither reads the ports. -/
theorem busyBlockIgnoresItsPorts : Obligations.BusyBlockIgnoresItsPorts := by
  intro s p hb hr hp hd
  rw [step_loop hb hr hd, step_loop (s := { s with inputs := p }) hb hp hd]
  obtain hphase | hphase := busy_iff.mp hb
  · rw [loopStep_check hphase, loopStep_check (s := { s with inputs := p }) hphase]
    exact deadlineTest_withInputs _ s p
  · rw [loopStep_drive hphase, loopStep_drive (s := { s with inputs := p }) hphase]
    exact driveStep_withInputs _ s p

/-! ### What is rewritten before it is read -/

section
variable {s t : State} (h : SameLive s t)
include h

theorem SameLive.busy_eq : s.busy = t.busy := by rw [State.busy, State.busy, h.phase]

theorem SameLive.dueEvent_eq : s.dueEvent = t.dueEvent := by
  rw [State.dueEvent, State.dueEvent, h.host, h.time]

theorem SameLive.handshake_eq : s.handshake = t.handshake := by
  rw [State.handshake, State.handshake, State.cfgReady, State.cfgReady, State.cmdReady,
    State.cmdReady, h.phase, h.inputs]

theorem SameLive.inReset_eq : s.inReset = t.inReset := by
  rw [Bool.eq_iff_iff, inReset_iff, inReset_iff, h.phase, h.txOut, h.faultCause]
  refine and_congr_right fun hp => ?_
  obtain ⟨hidx, hlevel, hlen⟩ := h.fresh (h.phase.trans hp)
  rw [hidx, hlevel, hlen]

/-- After a reset no command is in progress, so what it leaves unspecified is dormant (10_state.md R56). -/
theorem SameLive.resetStep : SameLive s.resetStep t.resetStep :=
  { h with
    phase := rfl
    txOut := rfl
    faultCause := rfl
    draws := congrArg (· + 7) h.draws
    deviceId := fun hn => absurd rfl hn
    fresh := fun _ => ⟨rfl, rfl, rfl⟩
    operands := nofun
    loop := nofun
    driver := nofun }

theorem SameLive.drivePorts (p : Inputs) (rest : List HostEvent) :
    SameLive (s.drivePorts p rest) (t.drivePorts p rest) :=
  { h with
    inputs := rfl
    host := rfl
    trace := by simp only [drivePorts_trace, h.inputs, h.trace]
    starts := by simp only [drivePorts_starts, h.inputs, h.starts]
    frames := by simp only [drivePorts_frames, h.inputs, h.frames] }

theorem SameLive.lower (o : Offer) : SameLive (s.lower o) (t.lower o) := by
  cases o <;> exact { h with inputs := by simp only [State.lower, h.inputs] }

theorem SameLive.configured (id : BitVec 16) :
    SameLive { s with deviceId := id, phase := .idle } { t with deviceId := id, phase := .idle } :=
  { h with
    phase := rfl
    deviceId := fun _ => rfl
    fresh := nofun
    operands := nofun
    loop := nofun
    driver := nofun }

theorem SameLive.takeFault (hp : s.phase ≠ .unconfigured) (c : FaultCause) :
    SameLive (s.takeFault c) (t.takeFault c) :=
  { h with
    phase := rfl
    faultCause := rfl
    deviceId := fun _ => h.deviceId hp
    fresh := nofun
    operands := nofun
    loop := nofun
    driver := nofun }

/-- A launch writes the operands, and the entries that are played from them (42_transmitter_session.md
R205). -/
theorem SameLive.launch (hp : s.phase ≠ .unconfigured) (tm : Config.Timing) (w : BitVec 16)
    (d : Duration) : SameLive (s.launch tm w d) (t.launch tm w d) := by
  have hid := h.deviceId hp
  have htime : (s.launch tm w d).time = (t.launch tm w d).time := by
    rw [launch_time, launch_time, h.time]
  refine { h with
    phase := rfl
    time := htime
    frames := rfl
    deviceId := fun _ => hid
    fresh := nofun
    operands := fun _ => ⟨rfl, rfl, rfl, by rw [launch_chk, launch_chk, hid]⟩
    loop := fun _ => ⟨by rw [launch_deadline, launch_deadline, h.time],
      by rw [launch_frameLen, launch_frameLen], fun i hi => ?_⟩
    driver := nofun }
  rw [launch_frameLen] at hi
  have hs := launch_read (s := s) (tm := tm) (w := w) (d := d) i.toNat hi
  have ht := launch_read (s := t) (tm := tm) (w := w) (d := d) i.toNat hi
  rw [hid, ht] at hs
  rw [entryIndex_eq_ofNat i]
  exact (Option.some.inj hs).symm

theorem SameLive.accept (hp : s.phase ≠ .unconfigured) (tm : Config.Timing) (w : BitVec 16)
    (d : Duration) : SameResult (accept tm w d s) (accept tm w d t) := by
  cases hc : legalChannel (chanField w) with
  | false =>
    rw [accept_illegalChannel hc, accept_illegalChannel hc]
    exact h.takeFault hp _
  | true =>
    cases hk : legalCommand (cmdField w) with
    | false =>
      rw [accept_illegalCommand hc hk, accept_illegalCommand hc hk]
      exact h.takeFault hp _
    | true =>
      cases hf : launchFits tm s.time d with
      | false =>
        rw [accept_refused hc hk hf, accept_refused hc hk (h.time ▸ hf)]
        rfl
      | true =>
        rw [accept_launch hc hk hf, accept_launch hc hk (h.time ▸ hf)]
        exact h.launch hp tm w d

theorem SameLive.frameStarted (hb : s.busy = true) (hp : s.phase ≠ .unconfigured)
    (tm : Config.Timing) : SameLive (s.frameStarted tm) (t.frameStarted tm) :=
  { h with
    phase := rfl
    time := congrArg (· + _) h.time
    deviceId := fun _ => h.deviceId hp
    fresh := nofun
    operands := fun _ => h.operands hb
    loop := fun _ => h.loop hb
    driver := fun _ => ⟨rfl, rfl⟩ }

theorem SameLive.commandEnded (hp : s.phase ≠ .unconfigured) (n : Nat) :
    SameLive { s with time := s.time + BitVec.ofNat 64 n, phase := .idle }
      { t with time := t.time + BitVec.ofNat 64 n, phase := .idle } :=
  { h with
    phase := rfl
    time := congrArg (· + _) h.time
    deviceId := fun _ => h.deviceId hp
    fresh := nofun
    operands := nofun
    loop := nofun
    driver := nofun }

theorem SameLive.deadlineTest (hb : s.busy = true) (hp : s.phase ≠ .unconfigured)
    (tm : Config.Timing) : SameResult (deadlineTest tm s) (deadlineTest tm t) := by
  obtain ⟨hdeadline, -, -⟩ := h.loop hb
  by_cases hroom : s.time.toNat + tm.tChk < 2 ^ 64
  · by_cases hlt : s.time.toNat + tm.tChk < s.deadline.toNat
    · rw [deadlineTest_pass hroom hlt,
        deadlineTest_pass (h.time ▸ hroom) (h.time ▸ hdeadline ▸ hlt)]
      exact h.frameStarted hb hp tm
    · have hge := Nat.not_lt.mp hlt
      rw [deadlineTest_fail hroom hge,
        deadlineTest_fail (h.time ▸ hroom) (h.time ▸ hdeadline ▸ hge)]
      exact h.commandEnded hp tm.tChk
  · rw [deadlineTest_refused hroom, deadlineTest_refused (h.time ▸ hroom)]
    rfl

theorem SameLive.entryStep (hp : s.phase = .drive) (hlt : s.idx.toNat < s.frameLen.toNat)
    (tm : Config.Timing) : SameResult (entryStep tm s) (entryStep tm t) := by
  have hb : s.busy = true := busy_iff.mpr (.inr hp)
  obtain ⟨hidx, hlevel⟩ := h.driver hp
  obtain ⟨-, -, hentries⟩ := h.loop hb
  have hread : t.frame.read t.idx = s.frame.read s.idx := by rw [← hidx, hentries _ hlt]
  have htrace : s.trace ++ [⟨s.level, s.frame.read s.idx⟩] =
      t.trace ++ [⟨t.level, s.frame.read s.idx⟩] := by rw [h.trace, hlevel]
  have hstarts : s.starts ++ [s.time] = t.starts ++ [t.time] := by rw [h.starts, h.time]
  cases hreset : resetBefore (s.time.toNat + holdTicks tm (s.frame.read s.idx)) s.time s.host with
  | some cut =>
    rw [entryStep_cut rfl hreset, entryStep_cut hread (h.time ▸ h.host ▸ hreset)]
    exact { h with txOut := hlevel, trace := htrace, starts := hstarts, time := rfl }
  | none =>
    by_cases hroom : s.time.toNat + holdTicks tm (s.frame.read s.idx) < 2 ^ 64
    · rw [entryStep_eq rfl hreset hroom,
        entryStep_eq hread (h.time ▸ h.host ▸ hreset) (h.time ▸ hroom)]
      exact { h with
        txOut := hlevel
        trace := htrace
        starts := hstarts
        time := congrArg (· + _) h.time
        fresh := fun hu => absurd (hp.symm.trans hu) nofun
        driver := fun _ => ⟨congrArg (· + 1#7) hidx, congrArg (! ·) hlevel⟩ }
    · rw [entryStep_refused rfl hreset hroom,
        entryStep_refused hread (h.time ▸ h.host ▸ hreset) (h.time ▸ hroom)]
      rfl

theorem SameLive.frameEndStep (hp : s.phase = .drive) :
    SameLive (frameEndStep s) (frameEndStep t) :=
  { h with
    phase := rfl
    txOut := rfl
    frames := congrArg (· + 1) h.frames
    deviceId := fun _ => h.deviceId (by simp [hp])
    fresh := nofun
    operands := fun _ => h.operands (busy_iff.mpr (.inr hp))
    loop := fun _ => h.loop (busy_iff.mpr (.inr hp))
    driver := nofun }

theorem SameLive.driveStep (hp : s.phase = .drive) (tm : Config.Timing) :
    SameResult (driveStep tm s) (driveStep tm t) := by
  obtain ⟨hidx, -⟩ := h.driver hp
  obtain ⟨-, hlen, -⟩ := h.loop (busy_iff.mpr (.inr hp))
  rw [Machine.driveStep, Machine.driveStep, ← hidx, ← hlen]
  split
  next hlt => exact h.entryStep hp hlt tm
  next =>
    split
    · exact h.frameEndStep hp
    · rfl

theorem SameLive.loopStep (hb : s.busy = true) (tm : Config.Timing) :
    SameResult (loopStep tm s) (loopStep tm t) := by
  obtain hp | hp := busy_iff.mp hb
  · rw [loopStep_check hp, loopStep_check (h.phase ▸ hp)]
    exact h.deadlineTest hb (by simp [hp]) tm
  · rw [loopStep_drive hp, loopStep_drive (h.phase ▸ hp)]
    exact h.driveStep hp tm

theorem SameLive.waitFreely : SameLive s.waitFreely t.waitFreely :=
  { h with
    time := by simp only [State.waitFreely, h.time, h.draws]
    draws := congrArg (· + 1) h.draws }

theorem SameLive.waitStep : SameResult (waitStep s) (waitStep t) := by
  have hhost := h.host
  cases hs : s.host with
  | nil =>
    rw [hs] at hhost
    rw [waitStep_of_no_plan hs, waitStep_of_no_plan hhost.symm]
    exact h.waitFreely
  | cons event rest =>
    obtain ⟨moment, p⟩ := event
    rw [hs] at hhost
    cases moment with
    | atTime r =>
      simp only [Machine.waitStep, hs, ← hhost]
      exact { h with time := congrArg (later · r) h.time, host := rfl }
    | whenFree d =>
      have hoffer : s.offering = t.offering := by rw [State.offering, State.offering, h.inputs]
      simp only [Machine.waitStep, hs, ← hhost, ← hoffer]
      split
      · exact h.waitFreely
      · by_cases hroom : s.time.toNat + d.toNat < 2 ^ 64
        · rw [advance_eq_some.mpr ⟨hroom, rfl⟩, advance_eq_some.mpr ⟨h.time ▸ hroom, rfl⟩]
          exact { h with
            time := congrArg (· + _) h.time
            host := by simp only [h.time] }
        · rw [advance_eq_none.mpr (Nat.not_lt.mp hroom),
            advance_eq_none.mpr (h.time ▸ Nat.not_lt.mp hroom)]
          rfl

end

/-- Settles O52: the two states take the same kind of step, and no kind reads what is dormant. -/
theorem dormantStateIsUnobservable : Obligations.DormantStateIsUnobservable := by
  intro s t h
  by_cases hreset : s.inputs.rst = true ∧ s.inReset = false
  · obtain ⟨hr, hn⟩ := hreset
    rw [step_reset hr hn, step_reset (h.inputs ▸ hr) (h.inReset_eq ▸ hn)]
    exact h.resetStep
  have hr : s.inputs.rst = true → s.inReset = true := by simpa using hreset
  have hrt : t.inputs.rst = true → t.inReset = true := by rwa [← h.inputs, ← h.inReset_eq]
  cases hd : s.dueEvent with
  | some event =>
    obtain ⟨p, rest⟩ := event
    rw [step_portChange hr hd, step_portChange hrt (h.dueEvent_eq ▸ hd)]
    exact h.drivePorts p rest
  | none =>
    have hdt : t.dueEvent = none := h.dueEvent_eq ▸ hd
    cases hb : s.busy with
    | true =>
      have hrst := rst_false_of_busy hr hb
      rw [step_loop hb hrst hd, step_loop (h.busy_eq ▸ hb) (h.inputs ▸ hrst) hdt]
      exact h.loopStep hb _
    | false =>
      cases ho : s.handshake with
      | none =>
        rw [step_wait hr hd hb ho, step_wait hrt hdt (h.busy_eq ▸ hb) (h.handshake_eq ▸ ho)]
        exact h.waitStep
      | some o =>
        obtain ⟨hp, hrst, hv, -⟩ | ⟨hp, hrst, hv, -⟩ := handshake_eq_some.mp ho
        · have hid : t.inputs.cfgId = s.inputs.cfgId := by rw [h.inputs]
          rw [step_configure hp hrst hv hd,
            step_configure (h.phase ▸ hp) (h.inputs ▸ hrst) (h.inputs ▸ hv) hdt, hid]
          exact (h.lower (.config s.inputs.cfgId)).configured s.inputs.cfgId
        · have hword : t.inputs.cmdWord = s.inputs.cmdWord := by rw [h.inputs]
          have hduration : t.inputs.cmdDuration = s.inputs.cmdDuration := by rw [h.inputs]
          rw [step_accept hp hrst hv hd,
            step_accept (h.phase ▸ hp) (h.inputs ▸ hrst) (h.inputs ▸ hv) hdt, hword, hduration]
          exact (h.lower (.command s.inputs.cmdWord s.inputs.cmdDuration)).accept (by simp [hp])
            _ _ _

end Sys2Proof.Machine
end

section
/-! The command family (43_commands.md): what an accepted command leaves, that its steps go on to the end,
and the words its lines assemble to. -/

namespace Sys2Proof.Machine

/-! ### The acceptance of each command -/

/-- The strength of BEEP takes effect as 0, that of the other commands as given (30_encoding.md R109). -/
theorem effectiveStrength_commandWord (chan cmd : BitVec 4) (strength : BitVec 8) :
    effectiveStrength (commandWord chan cmd strength) = if cmd = 3#4 then 0#8 else strength := by
  rw [effectiveStrength, cmdField_commandWord, strengthField_commandWord]

/-- A command word with legal fields is accepted where the port is ready and the clock has room. -/
theorem offerCommand_accepted {chan cmd : BitVec 4} {strength : BitVec 8} {d : Duration} {s : State}
    (hc : legalChannel chan = true) (hk : legalCommand cmd = true) (hp : s.phase = .idle)
    (hr : s.inputs.rst = false) (hroom : roomFor s d) :
    ∃ t, offerCommand (commandWord chan cmd strength) d s = .next t ∧
      Accepted s t chan cmd (if cmd = 3#4 then 0#8 else strength) d := by
  have haccepted := launch_accepted s (commandWord chan cmd strength) d
  rw [chanField_commandWord, cmdField_commandWord, effectiveStrength_commandWord] at haccepted
  refine ⟨_, ?_, haccepted⟩
  rw [offerCommand_ready _ d hp hr]
  exact accept_launch (by simpa using hc) (by simpa using hk) (launchFits_iff.mpr hroom)

/-- Settles O9: the acceptance of SHOCK's word, whose strength takes effect as given. -/
theorem shockIsAccepted : Obligations.ShockIsAccepted := fun _ _ _ _ hc hp hr hroom =>
  offerCommand_accepted hc rfl hp hr hroom

/-- Settles O10: the acceptance of VIBRATE's word, whose strength takes effect as given. -/
theorem vibrateIsAccepted : Obligations.VibrateIsAccepted := fun _ _ _ _ hc hp hr hroom =>
  offerCommand_accepted hc rfl hp hr hroom

/-- Settles O11: the acceptance of BEEP's word, whose strength takes effect as 0. -/
theorem beepIsAccepted : Obligations.BeepIsAccepted := fun _ _ _ hc hp hr hroom =>
  offerCommand_accepted hc rfl hp hr hroom

/-! ### An accepted command goes on to its end -/

/-- With no overheads the deadline test lets no time pass, so the clock does not stop it. -/
theorem deadlineTest_taken_answers (s : State) : ∃ t, deadlineTest Config.taken s = .next t := by
  obtain hlt | hge := Nat.lt_or_ge s.time.toNat s.deadline.toNat
  · exact ⟨_, deadlineTest_taken_pass hlt⟩
  · exact ⟨_, deadlineTest_taken_fail hge⟩

/-- The clock's room for the command covers the hold of the entry at `IDX`, which is one of those left in
the frame. -/
theorem ClockRoom.entry_fits {s : State} (hroom : ClockRoom s) (hl : Loaded s)
    (hp : s.phase = .drive) (hr : s.inputs.rst = false) (hlt : s.idx.toNat < s.frameLen.toNat)
    (hno : resetBefore (s.time.toNat + (s.frame.read s.idx).toNat) s.time s.host = none) :
    s.time.toNat + (s.frame.read s.idx).toNat < 2 ^ 64 := by
  have hpending : s.resetPending = false := by
    have hle := Nat.add_le_add_left (hl.read_idx_pos hlt) s.time.toNat
    rw [State.resetPending, resetBefore_none_mono hle hno]
    rfl
  have hleft := frameTicksLeft_playEntry hl hp hlt Config.taken
  have hfits := hroom (busy_iff.mpr (.inr hp)) hr hpending
  omega

/-- An entry step is cut by a reset or has room to its end. -/
theorem entryStep_taken_answers {s : State} (hroom : ClockRoom s) (hl : Loaded s)
    (hp : s.phase = .drive) (hr : s.inputs.rst = false) (hlt : s.idx.toNat < s.frameLen.toNat) :
    ∃ t, entryStep Config.taken s = .next t := by
  cases hreset : resetBefore (s.time.toNat + (s.frame.read s.idx).toNat) s.time s.host with
  | some cut => exact ⟨_, entryStep_cut rfl hreset⟩
  | none => exact ⟨_, entryStep_eq rfl hreset (hroom.entry_fits hl hp hr hlt hreset)⟩

theorem loopStep_taken_answers {s : State} (hi : Inv s) (hroom : ClockRoom s) (hb : s.busy = true)
    (hr : s.inputs.rst = false) : ∃ t, loopStep Config.taken s = .next t := by
  obtain hp | hp := busy_iff.mp hb
  · rw [loopStep_check hp]
    exact deadlineTest_taken_answers s
  · rw [loopStep_drive hp]
    obtain hlt | heq := (hi.idxBound hp).lt_or_eq
    · rw [driveStep_of_lt hlt]
      exact entryStep_taken_answers hroom (hi.loaded hb) hp hr hlt
    · exact ⟨_, driveStep_of_eq heq⟩

/-- Settles O50: a busy block is reset, has its ports changed, or takes a step of the loop. -/
theorem acceptedCommandNeverStops : Obligations.AcceptedCommandNeverStops := by
  intro s hi hroom hb
  by_cases hreset : s.inputs.rst = true ∧ s.inReset = false
  · obtain ⟨hr, hn⟩ := hreset
    exact ⟨_, step_reset hr hn⟩
  have hr : s.inputs.rst = true → s.inReset = true := by simpa using hreset
  cases hd : s.dueEvent with
  | some event => exact ⟨_, step_portChange hr hd⟩
  | none =>
    have hrst := rst_false_of_busy hr hb
    rw [step_loop hb hrst hd]
    exact loopStep_taken_answers hi hroom hb hrst

/-! ### The words of the assembler -/

theorem operand_of_lt {n v : Nat} (h : v < 2 ^ n) : operand n v = some (BitVec.ofNat n v) :=
  if_pos h

/-- The wire code of a channel number is legal (30_encoding.md R110, R112). -/
theorem legalChannel_of_channel {ch : Nat} (h3 : ch ≤ 3) :
    legalChannel (BitVec.ofNat 4 (ch - 1)) = true := by
  rw [legalChannel_iff, BitVec.toNat_ofNat]
  omega

/-- The word of a command in arithmetic on its operands (30_encoding.md R101). -/
theorem commandWord_ofNat (cmd : BitVec 4) (chan : Nat) {st : Nat} (hst : st < 256) :
    commandWord (BitVec.ofNat 4 chan) cmd (BitVec.ofNat 8 st) =
      BitVec.ofNat 16 (chan * 4096 + cmd.toNat * 256 + st) := by
  apply BitVec.eq_of_toNat_eq
  have hcmd := cmd.isLt
  rw [commandWord_toNat, BitVec.toNat_ofNat, BitVec.toNat_ofNat, BitVec.toNat_ofNat]
  omega

section LinesInRange
variable {ch st d : Nat} (h1 : 1 ≤ ch) (h3 : ch ≤ 3) (hd : d < 2 ^ 32)
include h1 h3 hd

theorem shock_instr (hst : st < 256) : (Line.shock ch st d).instr =
    some (.shock (BitVec.ofNat 4 (ch - 1)) (BitVec.ofNat 8 st) (BitVec.ofNat 32 d)) := by
  rw [Line.instr, channelCode_of_channel h1 h3, operand_of_lt (n := 8) hst, operand_of_lt hd]
  rfl

theorem vibrate_instr (hst : st < 256) : (Line.vibrate ch st d).instr =
    some (.vibrate (BitVec.ofNat 4 (ch - 1)) (BitVec.ofNat 8 st) (BitVec.ofNat 32 d)) := by
  rw [Line.instr, channelCode_of_channel h1 h3, operand_of_lt (n := 8) hst, operand_of_lt hd]
  rfl

theorem beep_instr : (Line.beep ch d).instr =
    some (.beep (BitVec.ofNat 4 (ch - 1)) (BitVec.ofNat 32 d)) := by
  rw [Line.instr, channelCode_of_channel h1 h3, operand_of_lt hd]
  rfl

end LinesInRange

/-- Settles O60: a line in range has a well-formed instruction, so its encoding decodes to it; the word
is that of its fields. -/
theorem assembledWordsAreTheEncodings : Obligations.AssembledWordsAreTheEncodings := by
  intro ch st d h1 h3 hst hd
  have hlegal := legalChannel_of_channel h3
  exact ⟨⟨_, shock_instr h1 h3 hd hst, decodeOffer_encode hlegal,
      congrArg (Offer.command · _) (commandWord_ofNat 1#4 (ch - 1) hst)⟩,
    ⟨_, vibrate_instr h1 h3 hd hst, decodeOffer_encode hlegal,
      congrArg (Offer.command · _) (commandWord_ofNat 2#4 (ch - 1) hst)⟩,
    ⟨_, beep_instr h1 h3 hd, decodeOffer_encode hlegal,
      congrArg (Offer.command · _) (commandWord_ofNat 3#4 (ch - 1) (st := 0) (by decide))⟩⟩

end Sys2Proof.Machine
end

section
/-! The exceptions family (60_exceptions.md): how a fault is entered, and that reset alone leaves it. -/

namespace Sys2Proof.Machine

/-! ### The illegal channel -/

/-- A command word with an illegal channel faults, whatever its other fields and the duration are
(60_exceptions.md R252). -/
theorem offerCommand_illegalChannel {chan : BitVec 4} {s : State} (hc : legalChannel chan = false)
    (hp : s.phase = .idle) (hr : s.inputs.rst = false) (cmd : BitVec 4) (strength : BitVec 8)
    (d : Duration) :
    offerCommand (commandWord chan cmd strength) d s = .next (s.takeFault .illegalChannel) := by
  rw [offerCommand_ready _ d hp hr]
  exact accept_illegalChannel (by simpa using hc)

/-- Settles O13: each command's word has the illegal channel in its channel field. -/
theorem illegalChannelFaults : Obligations.IllegalChannelFaults := by
  intro chan strength d s hc hp hr
  have hfault := offerCommand_illegalChannel ((legalChannel_false_iff chan).mpr hc) hp hr
  exact ⟨hfault 1#4 strength d, hfault 2#4 strength d, hfault 3#4 0#8 d⟩

/-! ### Fault entry -/

/-- A step of the loop does not fault the block (60_exceptions.md R256). -/
theorem loopStep_phase_ne_fault {tm : Config.Timing} {s t : State} (hb : s.busy = true)
    (h : loopStep tm s = .next t) : t.phase ≠ .fault := by
  obtain ⟨-, h⟩ | ⟨hp, h⟩ := loopStep_cases hb h
  · obtain ⟨-, ⟨-, rfl⟩ | ⟨-, rfl⟩⟩ := deadlineTest_cases h <;> nofun
  · obtain ⟨-, h⟩ | ⟨-, rfl⟩ := driveStep_cases h
    · obtain ⟨e, -, ⟨_, -, rfl⟩ | ⟨-, -, rfl⟩⟩ := entryStep_cases h <;> simp [hp]
    · nofun

/-- An acceptance that faults takes the fault of its word, which decodes as illegal
(60_exceptions.md R252, R253). -/
theorem takeFault_of_accept_fault {tm : Config.Timing} {w : BitVec 16} {d : Duration} {s t : State}
    (h : accept tm w d s = .next t) (hf : t.phase = .fault) :
    ∃ cause, decodeCommand w d = .illegal cause ∧ t = s.takeFault cause := by
  obtain ⟨hc, ht⟩ | ⟨hc, hk, ht⟩ | ⟨-, -, -, rfl⟩ := accept_cases h
  · exact ⟨_, decodeCommand_of_illegalChannel d hc, ht⟩
  · exact ⟨_, decodeCommand_of_illegalCommand d hc hk, ht⟩
  · simp at hf

/-- Of the six kinds of step, a command's acceptance alone enters FAULT. -/
theorem accept_of_step_fault {s t : State} (h : step s = .next t) (hs : s.phase ≠ .fault)
    (hf : t.phase = .fault) :
    s.phase = .idle ∧ s.inputs.rst = false ∧ s.inputs.cmdValid = true ∧
      accept Config.taken s.inputs.cmdWord s.inputs.cmdDuration
        { s with inputs := { s.inputs with cmdValid := false } } = .next t := by
  obtain ⟨-, -, rfl⟩ | ⟨p, rest, -, -, rfl⟩ | ⟨-, -, hb, h⟩ | ⟨-, -, -, -, rfl⟩ |
    ⟨hr, -, hp, hv, h⟩ | ⟨-, -, -, -, h⟩ := step_cases h
  · simp at hf
  · exact absurd hf hs
  · exact absurd hf (loopStep_phase_ne_fault hb h)
  · simp at hf
  · exact ⟨hp, hr, hv, h⟩
  · rw [(waitStep_cases h).1] at hf
    exact absurd hf hs

/-- Settles O38: the step is the acceptance of an illegal word, which takes its fault. -/
theorem faultEntryOnlyAtAHandshake : Obligations.FaultEntryOnlyAtAHandshake := by
  intro s t h hs hf
  obtain ⟨hp, hr, hv, haccept⟩ := accept_of_step_fault h hs hf
  obtain ⟨cause, hdecode, rfl⟩ := takeFault_of_accept_fault haccept hf
  exact ⟨hp, hr, hv, cause, hdecode, rfl, rfl, rfl, rfl, rfl, rfl,
    fun hi => congrArg BitVec.ofBool (hi.pinLow (by simp [hp]))⟩

/-! ### No return but reset -/

/-- An instruction has no effect on a block with neither port ready (42_transmitter_session.md R191,
R196). -/
theorem exec_notReady {s : State} (hcfg : s.cfgReady = false) (hcmd : s.cmdReady = false)
    (i : Instr) : exec i s = .next s := by
  cases i with
  | shock chan strength d => exact offerCommand_notReady _ d hcmd
  | vibrate chan strength d => exact offerCommand_notReady _ d hcmd
  | beep chan d => exact offerCommand_notReady _ d hcmd
  | configure id => exact execConfigure_notReady id hcfg

/-- While `rst` is 0 a step of a faulted block writes the environment and the observations only: the
host changes its ports, or time passes. -/
theorem step_eq_of_fault {s t : State} (hp : s.phase = .fault) (hr : s.inputs.rst = false)
    (h : step s = .next t) :
    t = { s with
      time := t.time, inputs := t.inputs, host := t.host, trace := t.trace, starts := t.starts,
      frames := t.frames, draws := t.draws } := by
  obtain ⟨hrst, -, -⟩ | ⟨p, rest, -, -, rfl⟩ | ⟨-, -, hb, -⟩ | ⟨-, -, hu, -, -⟩ |
    ⟨-, -, hidle, -, -⟩ | ⟨-, -, -, -, h⟩ := step_cases h
  · simp [hr] at hrst
  · rfl
  · simp [busy_iff, hp] at hb
  · simp [hp] at hu
  · simp [hp] at hidle
  · rw [(waitStep_cases h).1]

/-- Settles O39: no port of a faulted block is ready, its steps with `rst` 0 write no register, and with
`rst` 1 it takes the reset step. -/
theorem faultIsLeftByResetOnly : Obligations.FaultIsLeftByResetOnly := by
  intro s hp
  have hcfg : s.cfgReady = false := cfgReady_false (by simp [hp])
  have hcmd : s.cmdReady = false := cmdReady_false (by simp [hp])
  refine ⟨by simp [State.handshake, hcfg, hcmd], fun hi => hi.pinLow (by simp [hp]),
    exec_notReady hcfg hcmd, fun t hr h => ?_, fun hr => ?_⟩
  · rw [step_eq_of_fault hp hr h]
    exact ⟨hp, rfl, rfl⟩
  · have hnot : s.inReset = false := by simp [State.inReset, hp]
    exact ⟨_, step_reset hr hnot, rfl, rfl⟩

end Sys2Proof.Machine
end

section
/-! The reset family (70_reset_and_hazards.md): the block held in the reset state, and a reset in the
middle of a hold. -/

namespace Sys2Proof.Machine

/-! ### The block in reset -/

theorem inReset_false_of_phase {s : State} (h : s.phase ≠ .unconfigured) : s.inReset = false := by
  rw [Bool.eq_false_iff, ne_eq, inReset_iff]
  exact fun hreset => h hreset.1

@[simp] theorem drivePorts_inReset (s : State) (p : Inputs) (rest : List HostEvent) :
    (s.drivePorts p rest).inReset = s.inReset := rfl

theorem waitStep_inReset {s t : State} (h : waitStep s = .next t) : t.inReset = s.inReset := by
  rw [(waitStep_cases h).1]
  rfl

/-- While `rst` is 1 the block is held in the reset state: the host changes its ports, or time passes
(70_reset_and_hazards.md R290). -/
theorem step_keeps_inReset {s t : State} (hr : s.inputs.rst = true) (hin : s.inReset = true)
    (h : step s = .next t) : t.inReset = true := by
  obtain ⟨-, -, rfl⟩ | ⟨p, rest, -, -, rfl⟩ | ⟨hrst, -⟩ | ⟨hrst, -⟩ | ⟨hrst, -⟩ |
    ⟨-, -, -, -, h⟩ := step_cases h
  · exact resetStep_inReset s
  · exact hin
  · simp [hr] at hrst
  · simp [hr] at hrst
  · simp [hr] at hrst
  · exact (waitStep_inReset h).trans hin

/-- Settles O41: with `rst` 1 no port is ready and the step is the reset step or keeps the reset state;
with `rst` 0 a faulted block stays faulted, and a configured one keeps its id. -/
theorem resetHoldsTheBlock : Obligations.ResetHoldsTheBlock := by
  refine ⟨fun s hr => ⟨by simp [State.cfgReady, hr], by simp [State.cmdReady, hr],
    handshake_none_of_rst hr, fun hnot => ?_, fun hin t h => step_keeps_inReset hr hin h⟩,
    fun s t hr h => ⟨fun hp => ?_, fun hp => ?_⟩⟩
  · exact ⟨_, step_reset hr hnot, rfl, rfl, rfl, rfl, rfl, rfl, rfl, rfl⟩
  · rw [step_eq_of_fault hp hr h]
    exact hp
  · obtain ⟨-, -, hkeeps⟩ := deviceIdIsTakenOnce s hp
    exact (hkeeps t hr h).1

/-! ### A reset in the middle of a hold -/

theorem later_eq_right {a b : Ticks} (h : a < b) : later a b = b := if_pos (BitVec.le_of_lt h)

/-- The plan's first event raises `rst` within the bound. -/
theorem resetBefore_of_raise {bound : Nat} {now r : Ticks} {p : Inputs} (hp : p.rst = true)
    (hlt : now < r) (hbound : r.toNat < bound) (rest : List HostEvent) :
    resetBefore bound now (⟨.atTime r, p⟩ :: rest) = some r := by
  simp [resetBefore, later_eq_right hlt, hbound, hp]

/-- A port change planned for a later time is not due. -/
theorem dueEvent_none_of_lt {s : State} {r : Ticks} {p : Inputs} {rest : List HostEvent}
    (hhost : s.host = ⟨.atTime r, p⟩ :: rest) (hlt : s.time < r) : s.dueEvent = none := by
  rw [State.dueEvent, hhost]
  exact if_neg (BitVec.not_le.mpr hlt)

/-- What the entry step of the entry `e` leaves when a reset cuts its hold at time `cut`
(`entryStep_cut`). -/
def State.cutHold (s : State) (e : Entry) (cut : Ticks) : State :=
  { s with
    txOut := s.level, trace := s.trace ++ [⟨s.level, e⟩], starts := s.starts ++ [s.time],
    time := cut }

/-- The entry step during whose hold the host raises `rst` ends at the rise, its segment in the trace whole
(70_reset_and_hazards.md R292). -/
theorem step_hold_cut {s : State} {e : Entry} {r : Ticks} {p : Inputs} {rest : List HostEvent}
    (hphase : s.phase = .drive) (hidx : s.idx.toNat < s.frameLen.toNat)
    (he : s.frame.read s.idx = e) (hr : s.inputs.rst = false)
    (hhost : s.host = ⟨.atTime r, p⟩ :: rest) (hp : p.rst = true) (hlt : s.time < r)
    (hhold : r.toNat < s.time.toNat + e.toNat) :
    step s = .next (s.cutHold e r) := by
  have hcut : resetBefore (s.time.toNat + holdTicks Config.taken e) s.time s.host = some r := by
    rw [hhost]
    exact resetBefore_of_raise hp hlt hhold rest
  rw [step_drive hphase hr (dueEvent_none_of_lt hhost hlt), driveStep_of_lt hidx]
  exact entryStep_cut he hcut

/-- A due port change that raises `rst` is followed by the reset step, unless the block is unconfigured
(70_reset_and_hazards.md R290). -/
theorem core_run_raise {s : State} {p : Inputs} {rest : List HostEvent}
    (hr : s.inputs.rst = false) (hd : s.dueEvent = some (p, rest)) (hp : p.rst = true)
    (hphase : s.phase ≠ .unconfigured) :
    core.run 2 s = .next (s.drivePorts p rest).resetStep := by
  have hraise : step s = .next (s.drivePorts p rest) := step_portChange (by simp [hr]) hd
  have hreset : step (s.drivePorts p rest) = .next (s.drivePorts p rest).resetStep :=
    step_reset hp (inReset_false_of_phase hphase)
  rw [core_run_of_step hraise, core_run_of_step hreset, core_run_zero]

/-- Settles O42: the hold is cut at the rise, where the port change is due and the reset step follows; the
observations stay, since `rst` does not fall. -/
theorem resetDuringAHoldAbandonsTheFrame : Obligations.ResetDuringAHoldAbandonsTheFrame := by
  intro s e r p rest hphase hidx he hr hhost hp hlt hhold
  have hdue : (s.cutHold e r).dueEvent = some (p, rest) :=
    dueEvent_eq_some.mpr ⟨r, hhost, BitVec.le_refl r⟩
  have hdrive : (s.cutHold e r).phase ≠ .unconfigured := by simp [State.cutHold, hphase]
  rw [core_run_of_step (step_hold_cut hphase hidx he hr hhost hp hlt hhold),
    core_run_raise (s := s.cutHold e r) hr hdue hp hdrive]
  exact ⟨_, rfl, resetStep_inReset _, rfl, rfl, by simp [State.cutHold, hr],
    by simp [State.cutHold, hr], by simp [State.cutHold, hr]⟩

end Sys2Proof.Machine
end
